-- ==== Sys2Proof/Word.lean ====
section
/-! DEFINITION. The widths of the machine (00_scope.md R8, R15): every value is an unsigned word of a stated width. -/

namespace Sys2Proof

/-- A general register, a memory byte, a data access: 8 bits, unsigned (R8, 10_state.md R21). -/
abbrev Byte := BitVec 8

/-- The instruction pointer and an address of the window: 12 bits, unsigned (R8, 10_state.md R28). -/
abbrev Addr := BitVec 12

/-- An instruction word: 16 bits, two bytes (R8, 30_encoding.md R80). -/
abbrev Word := BitVec 16

/-- The opcode field, bits 15..12 of an instruction word (30_encoding.md R80). -/
abbrev Opcode := BitVec 4

/-- The value field, bits 11..0 of an instruction word (30_encoding.md R80). -/
abbrev Value := BitVec 12

end Sys2Proof
end

