-- ==== Sys2Proof/Config.lean ====
section
/-! DEFINITION. The parameters of the block (00_scope.md R8). Every one has a fixed value: "No parameter is left open
for a model to choose". So there is no opaque constant here: the spec leaves no value free. -/

namespace Sys2Proof.Config

/-- `MEM_WINDOW`: bytes the core can address, addresses 0x000 to 0xFFF (R8, 20_memory.md R51, 90_conflicts.md C1). -/
abbrev memWindow : Nat := 4096

/-- `MEM_IMAGE_MAX`: the largest image the loader accepts, and the size of the backing array (R8, 10_state.md R40,
70_reset_and_hazards.md R235; the spec's decision D4). -/
abbrev memImageMax : Nat := 8192

/-- The entry point: the address of the first fetch (R8, 70_reset_and_hazards.md R231). -/
abbrev entryPoint : Addr := 0

end Sys2Proof.Config
end

