-- ==== Sys2Proof/Machine/State.lean ====
section
/-! DEFINITION. The state of the block (10_state.md), the reasons a step can stop, and the state after reset. -/

namespace Sys2Proof.Machine

/-- The five general registers (10_state.md R20). They have no number and no encoding in an instruction. -/
inductive Reg where
  | A | B | C | D | E
  deriving DecidableEq, Repr

/-- Everything the spec gives the block: the tuple that opens 10_state.md, and the upper backing half that R41 names as
hidden state. Nothing else persists from one step to the next. -/
structure State where
  /-- Register A, the result register (R22). -/
  a : Byte
  /-- Register B, the first ALU source (R23). -/
  b : Byte
  /-- Register C, the second ALU source and the shift count (R23). -/
  c : Byte
  /-- Register D, JNZ's condition (R24). -/
  d : Byte
  /-- Register E, reached by SWE only (R25). -/
  e : Byte
  /-- The instruction pointer: the address of the first byte of the next instruction to fetch (R28). -/
  ip : Addr
  /-- The halt flag (R33). The cycle driver is HALTED exactly when it is true (R34; DESIGN CHOICE, entry 1, safe). -/
  halt : Bool
  /-- `ir_op`, the opcode of the most recently decoded instruction (R36). -/
  irOp : Opcode
  /-- `ir_val`, the value field of the most recently decoded instruction (R36). -/
  irVal : Value
  /-- The window M[0..4095] (R40), as a list of cells in canonical form (entry 4). -/
  mem : List Host.Cell
  /-- Backing bytes 4096..8191, written by the loader and reached by no step (R40, R41, 20_memory.md R71), in the same
  form. The spec lets a model omit them (DESIGN CHOICE, entry 2, safe). -/
  upper : List Host.Cell
  deriving DecidableEq, Repr

/-- The faults of a step: none. "There is no exception path: every opcode always completes" (60_exceptions.md R200,
R203; 30_encoding.md R92). A closed inductive with no constructor, so that no meaning can answer a fault (entry 11). -/
inductive Fault where
  deriving DecidableEq, Repr

/-- The refusals of a step. No refusal comes from the spec: "A step has no partial outcome and never faults"
(30_encoding.md R92). -/
inductive Refusal where
  /-- An instruction of the table without a meaning yet, raised by its arm of `exec`. Every instruction has its
  meaning, so no arm raises it. Safe: a model that refuses proves nothing false of the hardware. -/
  | notModelled (mnemonic : String)
  deriving DecidableEq, Repr

/-- The block at engine start, before any image is loaded (10_state.md R42 to R47, 70_reset_and_hazards.md R230). The
two zeros of the latch are the spec's own decision D7 (R46; entry 3). -/
def State.reset : State where
  a := 0
  b := 0
  c := 0
  d := 0
  e := 0
  ip := Config.entryPoint
  halt := false
  irOp := 0
  irVal := 0
  mem := []
  upper := []

end Sys2Proof.Machine
end

