-- ==== Sys2Proof/Machine/Ops.lean ====
section
/-! DEFINITION. The named operations over memory and registers. The block takes no exception and returns from none
(60_exceptions.md R200, R203, R204), so no such operation stands here. -/

namespace Sys2Proof.Machine

/-- What an address that a memory does not list reads as: 0, the reset contents (10_state.md R45, R42). -/
def unlistedByte : Byte := 0

/-- The byte a memory holds at an address. -/
def cellGet : List Host.Cell → Nat → Byte
  | [], _ => unlistedByte
  | (k, w) :: rest, addr => if k = addr then w else cellGet rest addr

/-- Every entry for an address taken out. -/
def cellErase (m : List Host.Cell) (addr : Nat) : List Host.Cell :=
  m.filter fun c => c.1 != addr

/-- The memory with the byte `v` at an address and nothing else changed. It keeps the canonical form: an entry goes to
its place in the rising order, and the value an unlisted address reads as is not listed. -/
def cellSet : List Host.Cell → Nat → Byte → List Host.Cell
  | [], addr, v => if v = unlistedByte then [] else [(addr, v)]
  | (k, w) :: rest, addr, v =>
    if k < addr then (k, w) :: cellSet rest addr v
    else if v = unlistedByte then cellErase ((k, w) :: rest) addr
    else (addr, v) :: cellErase ((k, w) :: rest) addr

/-- The canonical form: addresses strictly rising, from `lo` up to below `hi`, and no entry equal to what an unlisted
address reads as. Memories in this form are equal exactly when every address reads the same. -/
def cellsWf (lo hi : Nat) : List Host.Cell → Bool
  | [] => true
  | (k, w) :: rest => decide (lo ≤ k) && decide (k < hi) && decide (w ≠ unlistedByte) && cellsWf (k + 1) hi rest

/-- The bytes of a list at consecutive addresses from `start`, as a memory in canonical form. -/
def cellsOfBytes (start : Nat) : List Byte → List Host.Cell
  | [] => []
  | v :: rest =>
    if v = unlistedByte then cellsOfBytes (start + 1) rest else (start, v) :: cellsOfBytes (start + 1) rest

/-- The window's memory has its canonical form, with addresses 0 to 4095 (20_memory.md R51). -/
def Memory.wf (m : List Host.Cell) : Bool := cellsWf 0 Config.memWindow m

/-- The upper backing half has its canonical form, with addresses 4096 to 8191 (20_memory.md R71). -/
def Memory.upperWf (m : List Host.Cell) : Bool := cellsWf Config.memWindow Config.memImageMax m

/-- `mask12(a)`: the address both ports present to memory, reduced modulo 4096 (00_scope.md R16, 20_memory.md R52). -/
def mask12 (addr : Nat) : Nat := addr % 4096

/-- `MemRead(addr, 1)` (00_scope.md R17): the byte at `mask12(addr)`. Nothing faults (20_memory.md R52, R53). -/
def memRead (s : State) (addr : Nat) : Byte := cellGet s.mem (mask12 addr)

/-- `MemWrite(addr, 1, v)` (00_scope.md R17): the byte at `mask12(addr)` replaced, no other location changed
(20_memory.md R53). -/
def memWrite (s : State) (addr : Nat) (v : Byte) : State := { s with mem := cellSet s.mem (mask12 addr) v }

/-- `x[r]` (00_scope.md R16). -/
def readReg (s : State) : Reg → Byte
  | .A => s.a
  | .B => s.b
  | .C => s.c
  | .D => s.d
  | .E => s.e

/-- `x[r] <- v` (00_scope.md R16). No register is hardwired (10_state.md R20). -/
def writeReg (s : State) (r : Reg) (v : Byte) : State :=
  match r with
  | .A => { s with a := v }
  | .B => { s with b := v }
  | .C => { s with c := v }
  | .D => { s with d := v }
  | .E => { s with e := v }

/-- `(x[A], x[r]) <- (x[r], x[A])`: both reads happen before either write (00_scope.md R16, 43_swap.md). -/
def swapWithA (s : State) (r : Reg) : State := writeReg (writeReg s .A (readReg s r)) r (readReg s .A)

/-- `ip <- target` (00_scope.md R16). -/
def setIp (s : State) (target : Addr) : State := { s with ip := target }

/-- `mask12(p + 2)`: the address after the instruction at `p`. The 12-bit sum wraps (10_state.md R32, which the spec
derives from the width; entry 8). -/
def nextIp (p : Addr) : Addr := p + 2

/-- The status latch takes the opcode and the value field of the decoded word (10_state.md R36, 30_encoding.md R90). -/
def setLatch (s : State) (op : Opcode) (val : Value) : State := { s with irOp := op, irVal := val }

end Sys2Proof.Machine
end

