-- ==== Sys2Proof/Machine/Operands.lean ====
section
/-! DEFINITION. The operand forms (30_encoding.md R82, R83) and the results the ALU computes from B and C. -/

namespace Sys2Proof.Machine

/-- LDI's immediate: `value[7:0]`, unsigned; bits 11..8 are discarded (30_encoding.md R82, R83). -/
def imm8 (val : Value) : Byte := val.extractLsb' 0 8

/-- The one data addressing mode, absolute: the effective address is the value field (40_load_store.md R103). -/
def addr12 (val : Value) : Nat := val.toNat

/-- JNZ's target: `(zext_12(x[A]) + value) mod 4096` (42_control.md R130, 30_encoding.md R83). -/
def jumpTarget (base : Byte) (val : Value) : Addr := base.setWidth 12 + val

/-- `(b + c) mod 256` (41_arithmetic.md R120). -/
def aluAdd (b c : Byte) : Byte := b + c

/-- `(b - c) mod 256` (41_arithmetic.md R121). -/
def aluSub (b c : Byte) : Byte := b - c

/-- Bitwise or (44_logic_shift.md R150). -/
def aluOr (b c : Byte) : Byte := b ||| c

/-- Bitwise and (44_logic_shift.md R151). -/
def aluAnd (b c : Byte) : Byte := b &&& c

/-- Bitwise complement (44_logic_shift.md R152). -/
def aluNot (b : Byte) : Byte := ~~~b

/-- `(b << c) mod 256`, computed on unbounded integers and then truncated, with the whole 8-bit count: 0 for every
count of 8 or more (44_logic_shift.md R153; the spec's resolution C5 and decision D6, entry 6). -/
def aluShl (b c : Byte) : Byte := BitVec.ofNat 8 (b.toNat <<< c.toNat)

/-- `b >> c`, logical, with the whole 8-bit count: 0 for every count of 8 or more (44_logic_shift.md R154). -/
def aluShr (b c : Byte) : Byte := BitVec.ofNat 8 (b.toNat >>> c.toNat)

/-- An ALU instruction of two sources: "every arithmetic/logic opcode operates on exactly registers B and C into A"
(10_state.md R23). No flag is written (R35). -/
def aluInto (f : Byte → Byte → Byte) (s : State) : State := writeReg s .A (f (readReg s .B) (readReg s .C))

end Sys2Proof.Machine
end

