-- ==== Sys2Proof/Machine/Arithmetic.lean ====
section
/-! DEFINITION. Arithmetic (41_arithmetic.md): 8-bit unsigned and modular, no carry and no borrow (R122). -/

namespace Sys2Proof.Machine

/-- ADD: `x[A] <- (x[B] + x[C]) mod 256` (R120). -/
def execAdd (s : State) : Host.Outcome State Fault Refusal := .next (aluInto aluAdd s)

/-- SUB: `x[A] <- (x[B] - x[C]) mod 256` (R121). -/
def execSub (s : State) : Host.Outcome State Fault Refusal := .next (aluInto aluSub s)

end Sys2Proof.Machine
end

