-- ==== Sys2Proof/Machine/Control.lean ====
section
/-! DEFINITION. Control transfer (42_control.md). -/

namespace Sys2Proof.Machine

/-- JNZ: `if x[D] != 0 then ip <- (zext_12(x[A]) + val) mod 4096`; otherwise IP keeps the address after the fetch
(R130). No delay slot (R132). -/
def execJnz (val : Value) (s : State) : Host.Outcome State Fault Refusal :=
  if readReg s .D = 0 then .next s else .next (setIp s (jumpTarget (readReg s .A) val))

end Sys2Proof.Machine
end

