-- ==== Sys2Proof/Machine/LoadStore.lean ====
section
/-! DEFINITION. Immediate load, load and store (40_load_store.md). -/

namespace Sys2Proof.Machine

/-- LDI: `x[A] <- val[7:0]` (R100). -/
def execLdi (val : Value) (s : State) : Host.Outcome State Fault Refusal :=
  .next (writeReg s .A (imm8 val))

/-- LDM: `x[A] <- MemRead(val, 1)` (R101). -/
def execLdm (val : Value) (s : State) : Host.Outcome State Fault Refusal :=
  .next (writeReg s .A (memRead s (addr12 val)))

/-- STR: `MemWrite(val, 1, x[A])` (R102). -/
def execStr (val : Value) (s : State) : Host.Outcome State Fault Refusal :=
  .next (memWrite s (addr12 val) (readReg s .A))

end Sys2Proof.Machine
end

