-- ==== Sys2Proof/Machine/Logic.lean ====
section
/-! DEFINITION. Logic and shifts (44_logic_shift.md). The shift count is the whole 8-bit value of C. -/

namespace Sys2Proof.Machine

/-- OR: `x[A] <- x[B] | x[C]` (R150). -/
def execOr (s : State) : Host.Outcome State Fault Refusal := .next (aluInto aluOr s)

/-- AND: `x[A] <- x[B] & x[C]` (R151). -/
def execAnd (s : State) : Host.Outcome State Fault Refusal := .next (aluInto aluAnd s)

/-- NOT: `x[A] <- (~x[B])[7:0]`; it reads B only (R152). -/
def execNot (s : State) : Host.Outcome State Fault Refusal := .next (writeReg s .A (aluNot (readReg s .B)))

/-- SHL: `x[A] <- (x[B] << x[C]) mod 256` (R153). -/
def execShl (s : State) : Host.Outcome State Fault Refusal := .next (aluInto aluShl s)

/-- SHR: `x[A] <- x[B] >> x[C]` (R154). -/
def execShr (s : State) : Host.Outcome State Fault Refusal := .next (aluInto aluShr s)

end Sys2Proof.Machine
end

