-- ==== Sys2Proof/Machine/Swap.lean ====
section
/-! DEFINITION. The register swaps (43_swap.md). -/

namespace Sys2Proof.Machine

/-- SWB: `(x[A], x[B]) <- (x[B], x[A])` (R140). -/
def execSwb (s : State) : Host.Outcome State Fault Refusal := .next (swapWithA s .B)

/-- SWC: `(x[A], x[C]) <- (x[C], x[A])` (R141). -/
def execSwc (s : State) : Host.Outcome State Fault Refusal := .next (swapWithA s .C)

/-- SWD: `(x[A], x[D]) <- (x[D], x[A])` (R142). -/
def execSwd (s : State) : Host.Outcome State Fault Refusal := .next (swapWithA s .D)

/-- SWE: `(x[A], x[E]) <- (x[E], x[A])` (R143). -/
def execSwe (s : State) : Host.Outcome State Fault Refusal := .next (swapWithA s .E)

end Sys2Proof.Machine
end

