-- ==== Sys2Proof/Machine/Flags.lean ====
section
/-! DEFINITION. The flags: one, the halt flag. "The block has no condition codes: no carry, borrow, overflow, zero, sign
or parity flag" (10_state.md R35), so no flag is computed from a result. -/

namespace Sys2Proof.Machine

/-- `halt <- 1`. The flag is "never cleared once set" (10_state.md R33): no operation writes 0 to it. -/
def setHalt (s : State) : State := { s with halt := true }

/-- The cycle driver is HALTED (10_state.md R34). -/
def halted (s : State) : Bool := s.halt

end Sys2Proof.Machine
end

