-- ==== Sys2Proof/Machine/System.lean ====
section
/-! DEFINITION. The one system instruction (45_system.md R172). -/

namespace Sys2Proof.Machine

/-- HLT: `halt <- 1` (R170). IP already stands after the HLT (90_conflicts.md C6). -/
def execHlt (s : State) : Host.Outcome State Fault Refusal := .next (setHalt s)

end Sys2Proof.Machine
end

