-- ==== Sys2Proof/Syntax.lean ====
section
/-! DEFINITION. The instructions, one constructor per row of spec/opcode_table.json, and the assembler notation of
30_encoding.md R88 as structured lines. -/

namespace Sys2Proof

/-- The sixteen instructions, in the order of the opcode map (30_encoding.md R84). Each carries the whole 12-bit value
field of its word, the bits that R82 marks ignored included, so that a word and its instruction determine each other
(R81, R85; DESIGN CHOICE, assumption log entry 5, safe). -/
inductive Instr where
  | ldi (value : Value)
  | ldm (value : Value)
  | str (value : Value)
  | add (value : Value)
  | sub (value : Value)
  | jnz (value : Value)
  | swb (value : Value)
  | swc (value : Value)
  | swd (value : Value)
  | swe (value : Value)
  | or (value : Value)
  | and (value : Value)
  | not (value : Value)
  | shl (value : Value)
  | shr (value : Value)
  | hlt (value : Value)
  deriving DecidableEq, Repr

/-- The mnemonics of the opcode map (30_encoding.md R84), the words an assembler line begins with (R88). -/
inductive Mnemonic where
  | LDI | LDM | STR | ADD | SUB | JNZ | SWB | SWC | SWD | SWE | OR | AND | NOT | SHL | SHR | HLT
  deriving DecidableEq, Repr

/-- A number as an assembler line writes it: a numeral, or a label that stands for an address (R88). -/
inductive AsmNum where
  | lit (n : Nat)
  | label (name : String)
  deriving DecidableEq, Repr

/-- One line of assembler source (R88): an instruction without or with an operand, `.byte n`, `.word n`, or a label. -/
inductive AsmLine where
  | plain (m : Mnemonic)
  | operand (m : Mnemonic) (n : AsmNum)
  | byte (n : AsmNum)
  | word (n : AsmNum)
  | label (name : String)
  deriving DecidableEq, Repr

end Sys2Proof
end

