-- ==== Sys2Proof/Machine/Dispatch.lean ====
section
/-! DEFINITION. The dispatch: exhaustive and closed, one handler per opcode, no default arm (30_encoding.md R91). The
state an arm is given has IP already advanced and the latch already written (R90). -/

namespace Sys2Proof.Machine

def exec (i : Instr) (s : State) : Host.Outcome State Fault Refusal :=
  match i with
  | .ldi val => Sys2Proof.Machine.execLdi val s
  | .ldm val => Sys2Proof.Machine.execLdm val s
  | .str val => Sys2Proof.Machine.execStr val s
  | .add _ => Sys2Proof.Machine.execAdd s
  | .sub _ => Sys2Proof.Machine.execSub s
  | .jnz val => Sys2Proof.Machine.execJnz val s
  | .swb _ => Sys2Proof.Machine.execSwb s
  | .swc _ => Sys2Proof.Machine.execSwc s
  | .swd _ => Sys2Proof.Machine.execSwd s
  | .swe _ => Sys2Proof.Machine.execSwe s
  | .or _ => Sys2Proof.Machine.execOr s
  | .and _ => Sys2Proof.Machine.execAnd s
  | .not _ => Sys2Proof.Machine.execNot s
  | .shl _ => Sys2Proof.Machine.execShl s
  | .shr _ => Sys2Proof.Machine.execShr s
  | .hlt _ => Sys2Proof.Machine.execHlt s

end Sys2Proof.Machine
end

