-- ==== Sys2Proof/WellFormed.lean ====
section
/-! DEFINITION. Well-formedness. An `Instr` needs no check to be executed: its one field has exactly the 12 bits of the
value field, and "Every 16-bit word decodes to one of the sixteen instructions and executes" (30_encoding.md R81, R85).
What can be ill-formed is the notation of R88: an instruction with a nonzero ignored bit has no assembler line of its
own, and an operand out of range is refused. -/

namespace Sys2Proof

/-- The instruction has 0 in every bit that 30_encoding.md R82 marks ignored: the words that R88's assembler writes for
an instruction line, and that its disassembler prints as one. -/
def Instr.canonical : Instr → Bool
  | .ldi v => v.extractLsb' 8 4 == 0
  | .ldm _ => true
  | .str _ => true
  | .add v => v == 0
  | .sub v => v == 0
  | .jnz _ => true
  | .swb v => v == 0
  | .swc v => v == 0
  | .swd v => v == 0
  | .swe v => v == 0
  | .or v => v == 0
  | .and v => v == 0
  | .not v => v == 0
  | .shl v => v == 0
  | .shr v => v == 0
  | .hlt v => v == 0

/-- The largest operand a mnemonic takes, none for the twelve that take no operand (R88). -/
def Mnemonic.operandMax : Mnemonic → Option Nat
  | .LDI => some 255
  | .LDM => some 4095
  | .STR => some 4095
  | .JNZ => some 4095
  | .ADD => none
  | .SUB => none
  | .SWB => none
  | .SWC => none
  | .SWD => none
  | .SWE => none
  | .OR => none
  | .AND => none
  | .NOT => none
  | .SHL => none
  | .SHR => none
  | .HLT => none

/-- `n` is an operand that the mnemonic takes. "An assembler refuses an operand out of range and does not reduce it"
(R88). -/
def Mnemonic.operandFits (m : Mnemonic) (n : Nat) : Bool :=
  match m.operandMax with
  | none => false
  | some top => decide (n ≤ top)

/-- `n` fits the line's place for a number, where the line has one: the operand ranges of R88, one byte for `.byte`,
16 bits for `.word`. -/
def AsmLine.numberFits (n : Nat) : AsmLine → Bool
  | .plain m => m.operandMax.isNone
  | .operand m _ => m.operandFits n
  | .byte _ => decide (n < 256)
  | .word _ => decide (n < 65536)
  | .label _ => true

/-- A line whose number is written out is well formed when the number fits (R88). A line that names a label is checked
when the label's address is known, by the assembler. -/
def AsmLine.wf (l : AsmLine) : Bool :=
  match l with
  | .plain m => m.operandMax.isNone
  | .operand m (.label _) => m.operandMax.isSome
  | .operand _ (.lit n) => l.numberFits n
  | .byte (.lit n) => l.numberFits n
  | .byte (.label _) => true
  | .word (.lit n) => l.numberFits n
  | .word (.label _) => true
  | .label _ => true

end Sys2Proof
end

