-- ==== Sys2Proof/Decode.lean ====
section
/-! DEFINITION. The decoder and the encoder (30_encoding.md R80 to R87, R91), and the byte order of a word
(20_memory.md R58). -/

namespace Sys2Proof

/-- The decoder's opcode output: `word[15:12]` (30_encoding.md R81). -/
def opcodeOf (w : Word) : Opcode := w.extractLsb' 12 4

/-- The decoder's value output: `word[11:0]` (30_encoding.md R81). -/
def valueOf (w : Word) : Value := w.extractLsb' 0 12

/-- `{hi, lo}`: the byte at the lower address is bits 15..8 of the word (20_memory.md R54, R58). -/
def wordOfBytes (hi lo : Byte) : Word := hi ++ lo

/-- The byte of a word at the lower address, bits 15..8 (20_memory.md R58). -/
def highByte (w : Word) : Byte := w.extractLsb' 8 8

/-- The byte of a word at the higher address, bits 7..0 (20_memory.md R58). -/
def lowByte (w : Word) : Byte := w.extractLsb' 0 8

/-- The decoder, total over all 65536 words (30_encoding.md R81, R85). The four columns are bits 15, 14, 13 and 12 of
the word, as the opcode map writes them (R84); every row has an arm of its own and there is no default (R91). -/
def decode (w : Word) : Instr :=
  match w.getLsbD 15, w.getLsbD 14, w.getLsbD 13, w.getLsbD 12 with
  | false, false, false, false => .ldi (valueOf w)
  | false, false, false, true => .ldm (valueOf w)
  | false, false, true, false => .str (valueOf w)
  | false, false, true, true => .add (valueOf w)
  | false, true, false, false => .sub (valueOf w)
  | false, true, false, true => .jnz (valueOf w)
  | false, true, true, false => .swb (valueOf w)
  | false, true, true, true => .swc (valueOf w)
  | true, false, false, false => .swd (valueOf w)
  | true, false, false, true => .swe (valueOf w)
  | true, false, true, false => .or (valueOf w)
  | true, false, true, true => .and (valueOf w)
  | true, true, false, false => .not (valueOf w)
  | true, true, false, true => .shl (valueOf w)
  | true, true, true, false => .shr (valueOf w)
  | true, true, true, true => .hlt (valueOf w)

/-- What decoding a sequence of bytes answers: an instruction and the bytes after it, or a rejection by name. The only
rejection is a sequence of fewer than two bytes: "Every instruction is exactly 2 bytes long" (30_encoding.md R87). -/
inductive Decoded where
  /-- An instruction, and the bytes that follow it. -/
  | instr (i : Instr) (rest : List Byte)
  /-- Fewer than the two bytes of an instruction word. The fetch port always presents two (20_memory.md R54). -/
  | truncated
  deriving DecidableEq, Repr

/-- Decode the instruction at the front of a sequence of bytes, big-endian (20_memory.md R58). -/
def decodeBytes : List Byte → Decoded
  | hi :: lo :: rest => .instr (decode (wordOfBytes hi lo)) rest
  | [_] => .truncated
  | [] => .truncated

/-- The opcode of an instruction (30_encoding.md R84). -/
def opcode : Instr → Opcode
  | .ldi _ => 0b0000#4
  | .ldm _ => 0b0001#4
  | .str _ => 0b0010#4
  | .add _ => 0b0011#4
  | .sub _ => 0b0100#4
  | .jnz _ => 0b0101#4
  | .swb _ => 0b0110#4
  | .swc _ => 0b0111#4
  | .swd _ => 0b1000#4
  | .swe _ => 0b1001#4
  | .or _ => 0b1010#4
  | .and _ => 0b1011#4
  | .not _ => 0b1100#4
  | .shl _ => 0b1101#4
  | .shr _ => 0b1110#4
  | .hlt _ => 0b1111#4

/-- The value field of an instruction (30_encoding.md R80). -/
def valueField : Instr → Value
  | .ldi v => v
  | .ldm v => v
  | .str v => v
  | .add v => v
  | .sub v => v
  | .jnz v => v
  | .swb v => v
  | .swc v => v
  | .swd v => v
  | .swe v => v
  | .or v => v
  | .and v => v
  | .not v => v
  | .shl v => v
  | .shr v => v
  | .hlt v => v

/-- The word of an instruction: opcode in bits 15..12, value field in bits 11..0 (30_encoding.md R80). -/
def encode (i : Instr) : Word := opcode i ++ valueField i

/-- The two bytes of an instruction as they lie in memory, the high byte at the lower address (20_memory.md R58). -/
def encodeBytes (i : Instr) : List Byte := [highByte (encode i), lowByte (encode i)]

/-- The mnemonic of an instruction (30_encoding.md R84). -/
def mnemonic : Instr → Mnemonic
  | .ldi _ => .LDI
  | .ldm _ => .LDM
  | .str _ => .STR
  | .add _ => .ADD
  | .sub _ => .SUB
  | .jnz _ => .JNZ
  | .swb _ => .SWB
  | .swc _ => .SWC
  | .swd _ => .SWD
  | .swe _ => .SWE
  | .or _ => .OR
  | .and _ => .AND
  | .not _ => .NOT
  | .shl _ => .SHL
  | .shr _ => .SHR
  | .hlt _ => .HLT

/-- The instruction a mnemonic and a value field make (30_encoding.md R84). -/
def instrOf (m : Mnemonic) (v : Value) : Instr :=
  match m with
  | .LDI => .ldi v
  | .LDM => .ldm v
  | .STR => .str v
  | .ADD => .add v
  | .SUB => .sub v
  | .JNZ => .jnz v
  | .SWB => .swb v
  | .SWC => .swc v
  | .SWD => .swd v
  | .SWE => .swe v
  | .OR => .or v
  | .AND => .and v
  | .NOT => .not v
  | .SHL => .shl v
  | .SHR => .shr v
  | .HLT => .hlt v

/-- The instruction word in the low `nbits` bits of `w`, every bit above them 0. An instruction of this ISA has one
word, so bit 0 of `w` is bit 0 of that word. -/
def tableWord (nbits w : Nat) : Word := BitVec.ofNat 16 (w % 2 ^ nbits)

/-- The instruction the decoder reads from the table word `w` of `nbits` bits: the word is laid out in bytes as memory
holds it and given to `decodeBytes`. A word of more than 16 bits is no instruction of this ISA (30_encoding.md R87). -/
def decodeTableWord (nbits w : Nat) : Option Instr :=
  if nbits ≤ 16 then
    match decodeBytes [highByte (tableWord nbits w), lowByte (tableWord nbits w)] with
    | .instr i _ => some i
    | .truncated => none
  else none

end Sys2Proof
end

