-- ==== Sys2Proof/Machine/Fetch.lean ====
section
/-! DEFINITION. The fetch port (20_memory.md R54) and what a step does before the instruction runs (30_encoding.md
R90). -/

namespace Sys2Proof.Machine

/-- The word at `ip`: the byte at `ip` is bits 15..8 and the byte at `mask12(ip + 1)` is bits 7..0 (20_memory.md R54,
R58). At `ip = 0xFFF` the second byte is M[0] (R57; the spec's decision D5, entry 7). -/
def fetchWord (s : State) : Word := wordOfBytes (memRead s s.ip.toNat) (memRead s (s.ip.toNat + 1))

/-- IP advanced by 2 modulo 4096 and the latch written with the fetched word's opcode and value, before the dispatch
(30_encoding.md R90; 10_state.md R29, R36). -/
def afterFetch (s : State) : State :=
  setLatch (setIp s (nextIp s.ip)) (opcodeOf (fetchWord s)) (valueOf (fetchWord s))

/-- The state with a word where the fetch port reads its next one: its high byte at `ip` and its low byte at
`mask12(ip + 1)`. -/
def placeWord (s : State) (w : Word) : State :=
  memWrite (memWrite s s.ip.toNat (highByte w)) (s.ip.toNat + 1) (lowByte w)

/-- The driver made RUNNING, so that the next step fetches at all. No step of the block does this (10_state.md R33). -/
def makeRunning (s : State) : State := { s with halt := false }

end Sys2Proof.Machine
end

