-- ==== Sys2Proof/Machine/Step.lean ====
section
/-! DEFINITION. One step of the cycle driver (30_encoding.md R90). -/

namespace Sys2Proof.Machine

/-- One step. HALTED: nothing changes (30_encoding.md R93; the spec's decision D8 for the latch and memory, entry 9).
RUNNING: fetch, advance IP, write the latch, decode and dispatch, in that order (R90). -/
def step (s : State) : Host.Outcome State Fault Refusal :=
  if halted s then .next s else exec (decode (fetchWord s)) (afterFetch s)

/-- The state whose very next step fetches and runs the instruction of the table word `w`: the word stands at `ip`, big
endian, and the driver is RUNNING (entry 14). -/
def State.withFetchWord (s : State) (nbits w : Nat) : State := makeRunning (placeWord s (tableWord nbits w))

end Sys2Proof.Machine
end

