-- ==== Sys2Proof/Machine/Assembler.lean ====
section
/-! DEFINITION. The assembler notation that the spec fixes (30_encoding.md R88; the spec's decision D11): what a list of
source lines assembles to, and which line a word disassembles to. The lines are structured; splitting text into lines
and words is left out (entry 13). There are no pseudo-instructions (R89). -/

namespace Sys2Proof.Machine

/-- How many bytes a line places: an instruction and `.word` two, `.byte` one, a label none (30_encoding.md R87, R88). -/
def lineSize : AsmLine → Nat
  | .plain _ => 2
  | .operand _ _ => 2
  | .byte _ => 1
  | .word _ => 2
  | .label _ => 0

/-- The labels of a source that starts at `addr`, each with the address of what follows it (R88). -/
def labelTable (addr : Nat) : List AsmLine → List (String × Nat)
  | [] => []
  | .label name :: rest => (name, addr) :: labelTable addr rest
  | .plain m :: rest => labelTable (addr + lineSize (.plain m)) rest
  | .operand m n :: rest => labelTable (addr + lineSize (.operand m n)) rest
  | .byte n :: rest => labelTable (addr + lineSize (.byte n)) rest
  | .word n :: rest => labelTable (addr + lineSize (.word n)) rest

/-- No label is defined twice. R88 gives such a source no meaning; it is refused (DESIGN CHOICE, entry 13, safe). -/
def labelsDistinct (table : List (String × Nat)) : Bool := decide (table.map Prod.fst).Nodup

/-- The number a line's number stands for; a label that no line defines stands for none. -/
def resolveNum (table : List (String × Nat)) : AsmNum → Option Nat
  | .lit n => some n
  | .label name => (table.find? fun entry => entry.1 == name).map Prod.snd

/-- The bytes a line places, once its number is known: none where the number is missing or out of range (R88). The
assembler writes 0 in every ignored bit. -/
def emitLine (table : List (String × Nat)) (l : AsmLine) : Option (List Byte) :=
  match l with
  | .plain m => if l.numberFits 0 then some (encodeBytes (instrOf m 0)) else none
  | .operand m n =>
    match resolveNum table n with
    | some v => if l.numberFits v then some (encodeBytes (instrOf m (BitVec.ofNat 12 v))) else none
    | none => none
  | .byte n =>
    match resolveNum table n with
    | some v => if l.numberFits v then some [BitVec.ofNat 8 v] else none
    | none => none
  | .word n =>
    match resolveNum table n with
    | some v => if l.numberFits v then some [highByte (BitVec.ofNat 16 v), lowByte (BitVec.ofNat 16 v)] else none
    | none => none
  | .label _ => some []

/-- The bytes of every line, one after another; none as soon as one line is refused. -/
def emitLines (table : List (String × Nat)) : List AsmLine → Option (List Byte)
  | [] => some []
  | l :: rest =>
    match emitLine table l, emitLines table rest with
    | some here, some after => some (here ++ after)
    | some _, none => none
    | none, _ => none

/-- The image of a source, from address 0 (R88, 20_memory.md R63): none where the assembler refuses it. -/
def assemble (source : List AsmLine) : Option (List Byte) :=
  if labelsDistinct (labelTable 0 source) then emitLines (labelTable 0 source) source else none

/-- "A disassembler prints words with zero ignored bits in this syntax and prints every other word as `.word 0xHHHH`"
(R88). -/
def disassemble (w : Word) : AsmLine :=
  if (decode w).canonical then
    match (mnemonic (decode w)).operandMax with
    | some _ => .operand (mnemonic (decode w)) (.lit (valueField (decode w)).toNat)
    | none => .plain (mnemonic (decode w))
  else .word (.lit w.toNat)

end Sys2Proof.Machine
end

