-- ==== Sys2Proof/Machine/Loader.lean ====
section
/-! DEFINITION. The loader port and boot (70_reset_and_hazards.md R234, R235; 60_exceptions.md R211). Reading the image
from a file is outside the block (00_scope.md R6); what the loader presents, or fails to present, is an input. -/

namespace Sys2Proof.Machine

/-- What booting a fresh block answers. The two errors "occur outside the core" (00_scope.md R18), so they are no fault
of a step: either one means that the block is never started (60_exceptions.md R211). -/
inductive BootResult where
  /-- The block with the image in memory, ready for its first step. -/
  | ready (s : State)
  /-- `LoadTooLarge`: more bytes than the backing array; no byte was written. -/
  | loadTooLarge
  /-- `UnreadableImage`: the loader could not obtain the image's bytes. -/
  | unreadableImage
  deriving DecidableEq, Repr

/-- The image copied verbatim to the backing array from byte 0: bytes below 4096 into the window, the others into the
upper half (70_reset_and_hazards.md R235, 20_memory.md R63). Only the reset state is loaded into: "The loader acts only
before the first step" (R235, the spec's decision D10; entry 12). -/
def loadImage (image : List Byte) : State :=
  { State.reset with
    mem := cellsOfBytes 0 (image.take 4096)
    upper := cellsOfBytes 4096 (image.drop 4096) }

/-- Boot: the block is created in its initial state, and the loader writes the image or fails (R234, R235). `none` is an
image whose bytes the loader could not obtain. A host that omits the load (R236) boots the empty image. -/
def boot (image : Option (List Byte)) : BootResult :=
  match image with
  | none => .unreadableImage
  | some bytes => if bytes.length ≤ Config.memImageMax then .ready (loadImage bytes) else .loadTooLarge

end Sys2Proof.Machine
end

