-- ==== Sys2Proof/Machine/Reference.lean ====
section
/-! DEFINITION. The step of 30_encoding.md R90 written a second time, as the pseudocode has it: one function over
unbounded naturals, every result brought to its width by `mod` (00_scope.md R15), memory a function of the address, and
no use of the decoder, the operations or the meanings of this model. It is the clear reading that the machine is
compared with, in a statement; no run uses it. -/

namespace Sys2Proof.Machine

/-- The state of R90's pseudocode (00_scope.md R16), every value a natural number. -/
structure RefState where
  x : Reg → Nat
  ip : Nat
  halt : Bool
  irOp : Nat
  irVal : Nat
  M : Nat → Nat

/-- `x[r] <- v`. -/
def refWrite (r : RefState) (dst : Reg) (v : Nat) : RefState :=
  { r with x := fun q => if q = dst then v else r.x q }

/-- `(x[A], x[other]) <- (x[other], x[A])`. -/
def refSwap (r : RefState) (other : Reg) : RefState :=
  { r with x := fun q => if q = .A then r.x other else if q = other then r.x .A else r.x q }

/-- `case op of` of R90: the effect column of the opcode map (30_encoding.md R84), with the corner cases of the
instruction rules R100 to R170. An opcode above 15 does not exist. -/
def refExecute (op val : Nat) (r : RefState) : RefState :=
  match op with
  | 0 => refWrite r .A (val % 256)
  | 1 => refWrite r .A (r.M val)
  | 2 => { r with M := fun a => if a % 4096 = val then r.x .A else r.M a }
  | 3 => refWrite r .A ((r.x .B + r.x .C) % 256)
  | 4 => refWrite r .A ((r.x .B + 256 - r.x .C) % 256)
  | 5 => if r.x .D ≠ 0 then { r with ip := (r.x .A + val) % 4096 } else r
  | 6 => refSwap r .B
  | 7 => refSwap r .C
  | 8 => refSwap r .D
  | 9 => refSwap r .E
  | 10 => refWrite r .A (r.x .B ||| r.x .C)
  | 11 => refWrite r .A (r.x .B &&& r.x .C)
  | 12 => refWrite r .A (255 - r.x .B)
  | 13 => refWrite r .A (r.x .B * 2 ^ r.x .C % 256)
  | 14 => refWrite r .A (r.x .B / 2 ^ r.x .C)
  | 15 => { r with halt := true }
  | _ => r

/-- `step()` of R90, line by line. -/
def refStep (r : RefState) : RefState :=
  if r.halt then r
  else
    let hi := r.M r.ip
    let lo := r.M ((r.ip + 1) % 4096)
    let word := hi * 256 + lo
    let op := word / 4096
    let val := word % 4096
    refExecute op val { r with ip := (r.ip + 2) % 4096, irOp := op, irVal := val }

/-- What a state of the machine is in the pseudocode's terms. The upper backing half is no part of it
(20_memory.md R71). -/
def toRef (s : State) : RefState where
  x := fun r => (readReg s r).toNat
  ip := s.ip.toNat
  halt := s.halt
  irOp := s.irOp.toNat
  irVal := s.irVal.toNat
  M := fun a => (memRead s a).toNat

end Sys2Proof.Machine
end

