-- ==== Sys2Proof/Machine/Status.lean ====
section
/-! DEFINITION. The host's side of a run: the status outputs (00_scope.md R14) and the run-to-halt loop
(70_reset_and_hazards.md R236, R237). Nothing here is part of a step. -/

namespace Sys2Proof.Machine

/-- The status outputs, in the order of 00_scope.md R9's table. -/
structure Status where
  a : Byte
  b : Byte
  c : Byte
  d : Byte
  e : Byte
  ip : Addr
  halt : Bool
  lastOpcode : Opcode
  lastValue : Value
  deriving DecidableEq, Repr

/-- What the host reads between steps. It is a reading of the state: nothing changes, and nothing is decoded again
(00_scope.md R14, 60_exceptions.md R209). -/
def status (s : State) : Status :=
  { a := s.a, b := s.b, c := s.c, d := s.d, e := s.e, ip := s.ip, halt := s.halt,
    lastOpcode := s.irOp, lastValue := s.irVal }

/-- The host's continuous run: at most `k` step requests, none once the halt flag is seen set (00_scope.md R10,
70_reset_and_hazards.md R237). -/
def runToHalt : Nat → State → Host.Outcome State Fault Refusal
  | 0, s => .next s
  | k + 1, s =>
    if (status s).halt then .next s
    else match step s with
      | .next t => runToHalt k t
      | .fault r => .fault r
      | .refused r => .refused r

end Sys2Proof.Machine
end

