-- ==== Sys2Proof/Safety.lean ====
section
/-! DEFINITION. What counts as a safe state and a safe run, in the terms the statements use, and the frames: what a
step or an instruction leaves as it was. -/

namespace Sys2Proof.Machine

/-- The invariant of the machine: both memories have their canonical form, within their own addresses. Every other
field has exactly the width the spec gives it (10_state.md R47), so nothing else could be ill-formed. -/
abbrev State.Inv (s : State) : Prop := Memory.wf s.mem = true ∧ Memory.upperWf s.upper = true

/-- After `k` step requests from `s` the machine is in `t`: no fault and no refusal on the way. -/
def Reaches (s : State) (k : Nat) (t : State) : Prop := Sys2Proof.core.run k s = .next t

/-- A run from `s` never stops with a fault or a refusal (30_encoding.md R92). -/
def RunsForever (s : State) : Prop := ∀ k, ∃ t, Reaches s k t

/-- A run from `s` ends: some number of steps sets the halt flag (30_encoding.md R94). -/
def Halts (s : State) : Prop := ∃ k t, Reaches s k t ∧ t.halt = true

/-- Every byte of the window and of the upper half reads as before. -/
def SameMemory (s t : State) : Prop := (∀ addr, memRead t addr = memRead s addr) ∧ t.upper = s.upper

/-- IP, the halt flag and the latch are as before. -/
def SameControl (s t : State) : Prop := t.ip = s.ip ∧ t.halt = s.halt ∧ t.irOp = s.irOp ∧ t.irVal = s.irVal

/-- The bits of a word that have an effect: the opcode, and of the value field what 30_encoding.md R82 does not mark
ignored (LDI's low 8 bits, all 12 for LDM, STR and JNZ, none for the other twelve). -/
def usedBits (w : Word) : Word :=
  if w.toNat / 4096 = 0 then w &&& 0xF0FF#16
  else if w.toNat / 4096 = 1 ∨ w.toNat / 4096 = 2 ∨ w.toNat / 4096 = 5 then w
  else w &&& 0xF000#16

/-- Nothing but the registers named changes: every other register, IP, the halt flag, the latch and every byte of
memory are as before. -/
def OnlyRegsChange (named : List Reg) (s t : State) : Prop :=
  (∀ r, r ∉ named → readReg t r = readReg s r) ∧ SameControl s t ∧ SameMemory s t

end Sys2Proof.Machine
end

