-- ==== Sys2Proof/Certificates/Slice0/Obligations.lean ====
section
/-! DEFINITION. The statements for the provers. Each docstring names the rule of spec/ it formalises, or says that it
rests on a sentence the spec marks as its own ([derived] or [decision]) or on a choice of the model's, with the
assumption log's entry. -/

open Sys2Proof Sys2Proof.Machine

/-! ## Reset -/

/-- R42, R43, R44, and R45 with no image loaded: the state at engine start. -/
def Obligations.ResetStateIsZeroAndRunning : Prop :=
  (∀ r, readReg State.reset r = 0) ∧ State.reset.ip = 0 ∧ State.reset.halt = false ∧
    ∀ addr, memRead State.reset addr = 0 ∧ cellGet State.reset.upper addr = 0

/-- The latch of a booted block before its first step, whatever the image: R46, which the spec marks as its own decision
D7 (entry 3). -/
def Obligations.LatchReadsZeroBeforeTheFirstStep : Prop :=
  ∀ (image : List Byte) (s : State), boot (some image) = .ready s →
    (status s).lastOpcode = 0 ∧ (status s).lastValue = 0

/-- The invariant holds at reset, and of every block the loader lets start, for every image it accepts. The canonical form
is the model's own choice (entry 4). -/
def Obligations.ResetAndBootedStatesMeetMemoryInvariant : Prop :=
  State.reset.Inv ∧ ∀ (image : List Byte) (s : State), boot (some image) = .ready s → s.Inv ∧ image.length ≤ 8192

/-! ## Every step -/

/-- Every step keeps the canonical form of both memories, from every state that has it, reachable or not. The form is
the model's own choice (entry 4). -/
def Obligations.EveryStepKeepsMemoryInvariant : Prop :=
  ∀ s t : State, s.Inv → step s = .next t → t.Inv

/-- In canonical form, states whose windows read alike at every address hold the same window: so equality of states is
equality of what R40 describes. The form is the model's own choice (entry 4). -/
def Obligations.MemoriesThatReadAlikeAreEqual : Prop :=
  ∀ s t : State, s.Inv → t.Inv → (∀ addr, addr < 4096 → memRead s addr = memRead t addr) → s.mem = t.mem

/-- R90: when the two bytes the fetch port reads decode to `i`, a running step is exec of `i` at the state with IP past
the word and the latch written. The wrap of IP is derived by the spec (R32, entry 8); the mask on the second byte's
address is its decision D5 (entry 7). -/
def Obligations.StepRunsDecodedInstruction : Prop :=
  ∀ (s : State) (i : Instr), s.halt = false →
    decode (wordOfBytes (memRead s s.ip.toNat) (memRead s ((s.ip.toNat + 1) % 4096))) = i →
    step s = exec i { s with
      ip := BitVec.ofNat 12 ((s.ip.toNat + 2) % 4096), irOp := opcode i, irVal := valueField i }

/-- R92 and R200: every instruction completes from every state, and so does every step, halted or running. -/
def Obligations.EveryInstructionAndStepCompletes : Prop :=
  (∀ (i : Instr) (s : State), ∃ t, exec i s = .next t) ∧ ∀ s : State, ∃ t, step s = .next t

/-- No run ever stops with a fault or a refusal, from any state and for any number of steps (R13, R92, R200). -/
def Obligations.NoRunEverStops : Prop := ∀ s : State, RunsForever s

/-- The step of R90's pseudocode, written a second time over natural numbers (Machine/Reference.lean), is what the
machine's step does, from every state. R90 is read with the sentences the spec marks as its own that it rests on (R32,
R57 with D5, R93 with D8, R153 with D6). -/
def Obligations.StepRefinesPseudocode : Prop :=
  ∀ s : State, ∃ t, step s = .next t ∧ toRef t = refStep (toRef s)

/-- R30: where IP stands after a step. R30 is derived by the spec, and its wrap rests on R32 (entry 8). -/
def Obligations.IpAfterAStep : Prop :=
  ∀ s t : State, step s = .next t →
    (s.halt = true → t.ip = s.ip) ∧
    (s.halt = false → ∀ v, decode (fetchWord s) = .jnz v → s.d ≠ 0 → t.ip.toNat = (s.a.toNat + v.toNat) % 4096) ∧
    (s.halt = false → ((∃ v, decode (fetchWord s) = .jnz v) → s.d = 0) → t.ip.toNat = (s.ip.toNat + 2) % 4096)

/-- R26's column of writes, for what no other statement covers: only JNZ writes IP, only HLT the halt flag, only STR
memory; STR, JNZ and HLT write no register; no instruction writes the latch or the upper half. R26 is derived by the
spec. -/
def Obligations.OnlyTheNamedInstructionsWrite : Prop :=
  ∀ (i : Instr) (s t : State), exec i s = .next t →
    (t.ip ≠ s.ip → ∃ v, i = .jnz v) ∧
    (t.halt ≠ s.halt → ∃ v, i = .hlt v) ∧
    ((∃ addr, memRead t addr ≠ memRead s addr) → ∃ v, i = .str v) ∧
    ((∃ v, i = .str v ∨ i = .jnz v ∨ i = .hlt v) → ∀ r, readReg t r = readReg s r) ∧
    t.irOp = s.irOp ∧ t.irVal = s.irVal ∧ t.upper = s.upper

/-- R36: the decode of every executed step writes the latch, a halted step does not, the host reads it through the status
outputs, and no instruction reads it. -/
def Obligations.LatchRecordsTheLastDecode : Prop :=
  (∀ s t : State, s.halt = false → step s = .next t →
    (status t).lastOpcode = opcodeOf (fetchWord s) ∧ (status t).lastValue = valueOf (fetchWord s)) ∧
  (∀ s t : State, s.halt = true → step s = .next t →
    (status t).lastOpcode = s.irOp ∧ (status t).lastValue = s.irVal) ∧
  ∀ (i : Instr) (s t : State) (op : Opcode) (val : Value), exec i s = .next t →
    exec i { s with irOp := op, irVal := val } = .next { t with irOp := op, irVal := val }

/-- R71: no step reads or writes the upper backing half. R71 carries the spec's decision D4; that the model holds the
half at all is its own choice (entry 2). -/
def Obligations.NoStepReachesTheUpperHalf : Prop :=
  ∀ (s t : State) (u : List Host.Cell), step s = .next t →
    t.upper = s.upper ∧ step { s with upper := u } = .next { t with upper := u }

/-! ## Encoding -/

/-- The decoder reads back every encoded instruction, with every value field, as a word and as bytes in memory followed
by anything (R80, R84, R87). -/
def Obligations.DecodeOfEncodeIsTheInstruction : Prop :=
  ∀ (i : Instr) (rest : List Byte), decode (encode i) = i ∧ decodeBytes (encodeBytes i ++ rest) = .instr i rest

/-- The encoder gives back every one of the 65536 words: no word is left out and no bit is dropped (R81, R85). -/
def Obligations.EncodeOfDecodeIsTheWord : Prop := ∀ w : Word, encode (decode w) = w

/-- R81: the two outputs of the decoder, for every word. -/
def Obligations.DecodeIsPositional : Prop :=
  ∀ w : Word, opcode (decode w) = (w >>> 12).setWidth 4 ∧ valueField (decode w) = (w &&& 0xFFF#16).setWidth 12 ∧
    (opcode (decode w)).toNat = w.toNat / 4096 ∧ (valueField (decode w)).toNat = w.toNat % 4096

/-- Words written out in 95_test_vectors.md decode to the instructions listed there, one of each family. -/
def Obligations.ListedWordsDecodeAsListed : Prop :=
  decode 0x0F2A#16 = .ldi 0xF2A ∧ decode 0x1ABC#16 = .ldm 0xABC ∧ decode 0x200E#16 = .str 0x00E ∧
    decode 0x3ABC#16 = .add 0xABC ∧ decode 0x4000#16 = .sub 0 ∧ decode 0x5004#16 = .jnz 0x004 ∧
    decode 0x8000#16 = .swd 0 ∧ decode 0x9FFF#16 = .swe 0xFFF ∧ decode 0xB000#16 = .and 0 ∧
    decode 0xD000#16 = .shl 0 ∧ decode 0xFFFF#16 = .hlt 0xFFF

/-- R85: every word executes from every state, words that differ only in ignored bits execute identically, and the latch
holds the value field as fetched. -/
def Obligations.IgnoredBitsHaveNoEffect : Prop :=
  (∀ (w : Word) (s : State), ∃ t, exec (decode w) s = .next t) ∧
  (∀ (w w' : Word) (s : State), usedBits w = usedBits w' → exec (decode w) s = exec (decode w') s) ∧
  ∀ s t : State, s.halt = false → step s = .next t → t.irVal = valueOf (fetchWord s)

/-! ## Memory and the ports -/

/-- R53, through the port: a read after a write gives the written byte at the one location written and the old byte at
every other, and a write changes nothing but memory. -/
def Obligations.WriteReplacesOneByteOnly : Prop :=
  ∀ (s : State) (addr x : Nat) (v : Byte),
    (x % 4096 = addr % 4096 → memRead (memWrite s addr v) x = v) ∧
    (x % 4096 ≠ addr % 4096 → memRead (memWrite s addr v) x = memRead s x) ∧
    (∀ r, readReg (memWrite s addr v) r = readReg s r) ∧ SameControl s (memWrite s addr v) ∧
    (memWrite s addr v).upper = s.upper

/-- R52: both directions of the port alias addresses 4096 apart. That the mask covers reads as well as writes is the
spec's resolution C4. -/
def Obligations.PortAddressesWrap : Prop :=
  ∀ (s : State) (addr k : Nat) (v : Byte),
    memRead s (addr + 4096 * k) = memRead s addr ∧ memWrite s (addr + 4096 * k) v = memWrite s addr v

/-- R54, R57, R58: the fetched word, big-endian, from any address, with M[0] as its low byte at 0xFFF. The mask on the
second address is the spec's decision D5 (entry 7). -/
def Obligations.FetchIsBigEndianAndWraps : Prop :=
  ∀ s : State,
    (fetchWord s).toNat = (memRead s s.ip.toNat).toNat * 256 + (memRead s ((s.ip.toNat + 1) % 4096)).toNat ∧
    (s.ip = 0xFFF → fetchWord s = memRead s 0xFFF ++ memRead s 0)

/-- R70: a byte stored over the next instruction's high byte is what the very next step executes. R70 is derived by the
spec; the addresses wrap by R32 (entry 8). -/
def Obligations.StoreIsSeenByTheNextFetch : Prop :=
  ∀ (s : State) (v : Value), s.halt = false → fetchWord s = 0b0010#4 ++ v → v.toNat = (s.ip.toNat + 2) % 4096 →
    ∃ t, step s = .next t ∧ fetchWord t = wordOfBytes s.a (memRead s (s.ip.toNat + 3)) ∧
      step t = exec (decode (wordOfBytes s.a (memRead s (s.ip.toNat + 3)))) (afterFetch t)

/-- R105: STR X then LDM X, two steps one after another, leave A as it was, for every X but the two addresses of the LDM
word itself. R105 is derived by the spec. -/
def Obligations.StoreThenLoadRoundTrip : Prop :=
  ∀ (s : State) (X : Value), s.halt = false → fetchWord s = 0b0010#4 ++ X →
    wordOfBytes (memRead s (s.ip.toNat + 2)) (memRead s (s.ip.toNat + 3)) = 0b0001#4 ++ X →
    X.toNat ≠ (s.ip.toNat + 2) % 4096 → X.toNat ≠ (s.ip.toNat + 3) % 4096 →
    ∃ t u, step s = .next t ∧ step t = .next u ∧ u.a = s.a ∧ memRead u X.toNat = s.a ∧
      OnlyRegsChange [] { t with ip := u.ip, irOp := u.irOp, irVal := u.irVal } u

/-! ## Loads and stores -/

/-- R100: LDI, its encoding, its result and its frame. -/
def Obligations.LdiLoadsTheLowByte : Prop :=
  ∀ (v : Value) (s : State), decode (0b0000#4 ++ v) = .ldi v ∧
    ∃ t, exec (.ldi v) s = .next t ∧ (readReg t .A).toNat = v.toNat % 256 ∧ OnlyRegsChange [.A] s t

/-- R101: LDM, its encoding, its result and its frame, and the corner case of a load from its own address `p`, which
returns its own high byte 0x1H with H = p[11:8]. -/
def Obligations.LdmLoadsTheAddressedByte : Prop :=
  (∀ (v : Value) (s : State), decode (0b0001#4 ++ v) = .ldm v ∧
    ∃ t, exec (.ldm v) s = .next t ∧ readReg t .A = memRead s v.toNat ∧ OnlyRegsChange [.A] s t) ∧
  ∀ s : State, s.halt = false → fetchWord s = 0b0001#4 ++ s.ip →
    ∃ t, step s = .next t ∧ t.a.toNat = 16 + s.ip.toNat / 256

/-- R102: STR, its encoding, the one byte it stores to (the address is the value field) and its frame; and, for a whole
step, that the store does not change the word that the step executes, whatever its address. -/
def Obligations.StrStoresAAtTheAddressedByte : Prop :=
  (∀ (v : Value) (s : State), decode (0b0010#4 ++ v) = .str v ∧ addr12 v = v.toNat ∧
    ∃ t, exec (.str v) s = .next t ∧ memRead t (addr12 v) = readReg s .A ∧
      (∀ addr, mask12 addr ≠ mask12 (addr12 v) → memRead t addr = memRead s addr) ∧
      (∀ r, readReg t r = readReg s r) ∧ SameControl s t ∧ t.upper = s.upper) ∧
  ∀ (s : State) (v : Value), s.halt = false → fetchWord s = 0b0010#4 ++ v →
    ∃ t, step s = .next t ∧ memRead t (addr12 v) = s.a ∧ t.irOp = 0b0010#4 ∧ t.irVal = v ∧
      (∀ addr, mask12 addr ≠ mask12 (addr12 v) → memRead t addr = memRead s addr) ∧ t.a = s.a

/-! ## Arithmetic -/

/-- R120: ADD, its encoding, its result and its frame. -/
def Obligations.AddWritesTheSum : Prop :=
  ∀ (v : Value) (s : State), decode (0b0011#4 ++ v) = .add v ∧
    ∃ t, exec (.add v) s = .next t ∧
      (readReg t .A).toNat = ((readReg s .B).toNat + (readReg s .C).toNat) % 256 ∧ OnlyRegsChange [.A] s t

/-- R121: SUB, its encoding, its result and its frame. -/
def Obligations.SubWritesTheDifference : Prop :=
  ∀ (v : Value) (s : State), decode (0b0100#4 ++ v) = .sub v ∧
    ∃ t, exec (.sub v) s = .next t ∧
      (readReg t .A).toNat = ((readReg s .B).toNat + 256 - (readReg s .C).toNat) % 256 ∧ OnlyRegsChange [.A] s t

/-- R122: the same bit patterns read as two's-complement numbers give the two's-complement sum and difference with
silent wrap, and as unsigned numbers the sum and difference modulo 256. -/
def Obligations.ArithmeticIsModularInBothReadings : Prop :=
  ∀ (v : Value) (s : State), ∃ t u, exec (.add v) s = .next t ∧ exec (.sub v) s = .next u ∧
    ((t.a.toNat : Int) = ((s.b.toNat : Int) + s.c.toNat) % 256) ∧
    ((u.a.toNat : Int) = ((s.b.toNat : Int) - s.c.toNat) % 256) ∧
    t.a.toInt = (s.b.toInt + s.c.toInt).bmod 256 ∧ u.a.toInt = (s.b.toInt - s.c.toInt).bmod 256

/-! ## Control transfer -/

/-- R134, with JNZ's encoding and frame: with D = 0 a JNZ changes nothing, for any A and value; with D ≠ 0 it sets IP to
(A + value) mod 4096 and changes nothing else. -/
def Obligations.JnzJumpsWhenDIsNotZero : Prop :=
  ∀ (v : Value) (s : State), decode (0b0101#4 ++ v) = .jnz v ∧
    (readReg s .D = 0 → exec (.jnz v) s = .next s) ∧
    (readReg s .D ≠ 0 → ∃ t, exec (.jnz v) s = .next t ∧ t.ip.toNat = ((readReg s .A).toNat + v.toNat) % 4096 ∧
      OnlyRegsChange [] { s with ip := t.ip } t)

/-- R130 and R94: a JNZ whose target is its own address, with D ≠ 0, is a hang: no number of steps sets the halt flag. -/
def Obligations.JnzToItselfNeverHalts : Prop :=
  ∀ (s : State) (v : Value), s.halt = false → fetchWord s = 0b0101#4 ++ v → s.d ≠ 0 →
    (s.a.toNat + v.toNat) % 4096 = s.ip.toNat → ¬ Halts s

/-! ## Swaps -/

/-- R140: SWB, its encoding, the exchange, its frame, its involution, and that it is the only way to write B. -/
def Obligations.SwbExchangesAAndB : Prop :=
  (∀ (v : Value) (s : State), decode (0b0110#4 ++ v) = .swb v ∧
    ∃ t, exec (.swb v) s = .next t ∧ readReg t .A = readReg s .B ∧ readReg t .B = readReg s .A ∧
      OnlyRegsChange [.A, .B] s t ∧ ∀ v', exec (.swb v') t = .next s) ∧
  ∀ (i : Instr) (s t : State), exec i s = .next t → readReg t .B ≠ readReg s .B → ∃ v, i = .swb v

/-- R141: SWC, its encoding, the exchange, its frame, its involution, and that it is the only way to write C. -/
def Obligations.SwcExchangesAAndC : Prop :=
  (∀ (v : Value) (s : State), decode (0b0111#4 ++ v) = .swc v ∧
    ∃ t, exec (.swc v) s = .next t ∧ readReg t .A = readReg s .C ∧ readReg t .C = readReg s .A ∧
      OnlyRegsChange [.A, .C] s t ∧ ∀ v', exec (.swc v') t = .next s) ∧
  ∀ (i : Instr) (s t : State), exec i s = .next t → readReg t .C ≠ readReg s .C → ∃ v, i = .swc v

/-- R142: SWD, its encoding, the exchange, its frame, its involution, and that it is the only way to write D. -/
def Obligations.SwdExchangesAAndD : Prop :=
  (∀ (v : Value) (s : State), decode (0b1000#4 ++ v) = .swd v ∧
    ∃ t, exec (.swd v) s = .next t ∧ readReg t .A = readReg s .D ∧ readReg t .D = readReg s .A ∧
      OnlyRegsChange [.A, .D] s t ∧ ∀ v', exec (.swd v') t = .next s) ∧
  ∀ (i : Instr) (s t : State), exec i s = .next t → readReg t .D ≠ readReg s .D → ∃ v, i = .swd v

/-- R143: SWE, its encoding, the exchange, its frame, its involution, and that it is the only instruction that reads or
writes E: any other runs the same whatever E holds, and leaves it. -/
def Obligations.SweExchangesAAndE : Prop :=
  (∀ (v : Value) (s : State), decode (0b1001#4 ++ v) = .swe v ∧
    ∃ t, exec (.swe v) s = .next t ∧ readReg t .A = readReg s .E ∧ readReg t .E = readReg s .A ∧
      OnlyRegsChange [.A, .E] s t ∧ ∀ v', exec (.swe v') t = .next s) ∧
  ∀ (i : Instr) (s t : State), exec i s = .next t → (∀ v, i ≠ .swe v) →
    readReg t .E = readReg s .E ∧ ∀ x, exec i (writeReg s .E x) = .next (writeReg t .E x)

/-! ## Logic and shifts -/

/-- R150, R151, R152: OR, AND and NOT bit by bit, their encodings and frames; NOT is 255 - B whatever C holds. -/
def Obligations.LogicIsBitwise : Prop :=
  ∀ (v : Value) (s : State),
    (decode (0b1010#4 ++ v) = .or v ∧ ∃ t, exec (.or v) s = .next t ∧
      (∀ k, k < 8 → (readReg t .A).getLsbD k = ((readReg s .B).getLsbD k || (readReg s .C).getLsbD k)) ∧
      OnlyRegsChange [.A] s t) ∧
    (decode (0b1011#4 ++ v) = .and v ∧ ∃ t, exec (.and v) s = .next t ∧
      (∀ k, k < 8 → (readReg t .A).getLsbD k = ((readReg s .B).getLsbD k && (readReg s .C).getLsbD k)) ∧
      OnlyRegsChange [.A] s t) ∧
    (decode (0b1100#4 ++ v) = .not v ∧ ∃ t, exec (.not v) s = .next t ∧
      (∀ k, k < 8 → (readReg t .A).getLsbD k = !(readReg s .B).getLsbD k) ∧
      (readReg t .A).toNat = 255 - (readReg s .B).toNat ∧ OnlyRegsChange [.A] s t)

/-- SHL: R153, whose result 0 for counts of 8 or more is the spec's resolution C5 and decision D6 (entry 6). -/
def Obligations.ShlShiftsAndTruncates : Prop :=
  ∀ (v : Value) (s : State), decode (0b1101#4 ++ v) = .shl v ∧
    ∃ t, exec (.shl v) s = .next t ∧
      (readReg t .A).toNat = (readReg s .B).toNat * 2 ^ (readReg s .C).toNat % 256 ∧
      (8 ≤ (readReg s .C).toNat → readReg t .A = 0) ∧
      (∀ k, k < 8 → (readReg t .A).getLsbD k =
        (decide ((readReg s .C).toNat ≤ k) && (readReg s .B).getLsbD (k - (readReg s .C).toNat))) ∧
      OnlyRegsChange [.A] s t

/-- R154: SHR, its encoding, its zero-filled result for every count from 0 to 255, and its frame. -/
def Obligations.ShrShiftsWithZeroFill : Prop :=
  ∀ (v : Value) (s : State), decode (0b1110#4 ++ v) = .shr v ∧
    ∃ t, exec (.shr v) s = .next t ∧
      (readReg t .A).toNat = (readReg s .B).toNat / 2 ^ (readReg s .C).toNat ∧
      (8 ≤ (readReg s .C).toNat → readReg t .A = 0) ∧
      (∀ k, k < 8 → (readReg t .A).getLsbD k = (readReg s .B).getLsbD (k + (readReg s .C).toNat)) ∧
      OnlyRegsChange [.A] s t

/-! ## Halt -/

/-- HLT sets the halt flag and nothing else; a step that executes it leaves IP after it and the latch holding its word.
The wrap of IP rests on R32, which the spec derives (entry 8). -/
def Obligations.HltSetsTheHaltFlagOnly : Prop :=
  (∀ (v : Value) (s : State), decode (0b1111#4 ++ v) = .hlt v ∧
    ∃ t, exec (.hlt v) s = .next t ∧ t.halt = true ∧ OnlyRegsChange [] { s with halt := true } t) ∧
  ∀ (s : State) (v : Value), s.halt = false → fetchWord s = 0b1111#4 ++ v →
    ∃ t, step s = .next t ∧ t.halt = true ∧ t.ip.toNat = (s.ip.toNat + 2) % 4096 ∧ t.irOp = 15 ∧ t.irVal = v ∧
      (∀ r, readReg t r = readReg s r) ∧ SameMemory s t

/-- R171: after HLT executes, no number of further steps changes IP, the halt flag or a register. -/
def Obligations.AfterHltTheMachineIsFrozen : Prop :=
  ∀ (v : Value) (s t : State), exec (.hlt v) s = .next t → ∀ k, ∃ u, Reaches t k u ∧
    u.ip = t.ip ∧ u.halt = t.halt ∧ ∀ r, readReg u r = readReg t r

/-- A halted state is final: every number of steps answers that very state, the latch and memory included. The spec's
R93 extends the source's list to these two by its decision D8 (entry 9). -/
def Obligations.HaltedStateIsFinal : Prop := ∀ s : State, s.halt = true → ∀ k, Reaches s k s

/-- R94, R237: the host's loop, which stops asking at the first halted state, ends in the state that any longer run from
the same state ends in (by R93 with the spec's decision D8, entry 9). -/
def Obligations.RunToHaltAgreesWithStepping : Prop :=
  ∀ (s t : State) (k : Nat), Reaches s k t → runToHalt k s = .next t

/-! ## Loader and boot -/

/-- R63: image byte i lands at address i, in the window below 4096 and in the upper half from there on, and every other
byte of both keeps its reset value; the registers, IP, the halt flag and the latch stay as at reset. -/
def Obligations.ImageLandsVerbatimFromAddressZero : Prop :=
  ∀ image : List Byte, image.length ≤ 8192 → ∃ s, boot (some image) = .ready s ∧
    (∀ i, i < 4096 → memRead s i = image.getD i 0) ∧
    (∀ i, 4096 ≤ i → i < 8192 → cellGet s.upper i = image.getD i 0) ∧
    (∀ r, readReg s r = readReg State.reset r) ∧ SameControl State.reset s

/-- R211: the two loader errors, neither of which leaves a block to step. -/
def Obligations.LoaderErrorsStartNoBlock : Prop :=
  (∀ image : List Byte, 8192 < image.length → boot (some image) = .loadTooLarge) ∧
    boot none = .unreadableImage ∧ ∀ s : State, boot none ≠ .ready s

/-- R231: the first step of a booted block runs the word at bytes 0 and 1 of memory, which hold the first two bytes of
the image, or 0 where the image is shorter. -/
def Obligations.FirstStepRunsTheWordAtZero : Prop :=
  ∀ (image : List Byte) (s : State), boot (some image) = .ready s →
    s.ip = 0 ∧ fetchWord s = wordOfBytes (image.getD 0 0) (image.getD 1 0) ∧
      step s = exec (decode (wordOfBytes (image.getD 0 0) (image.getD 1 0))) (afterFetch s)

/-- The model's own placing of a word (entry 14): the very next step runs it, and nothing but the two bytes at the fetch
address and the halt flag differs. -/
def Obligations.PlacedWordIsRunNext : Prop :=
  ∀ (s : State) (w : Nat), w < 65536 →
    step (s.withFetchWord 16 w) = exec (decode (BitVec.ofNat 16 w)) (afterFetch (s.withFetchWord 16 w)) ∧
    (∀ addr, addr % 4096 ≠ s.ip.toNat → addr % 4096 ≠ (s.ip.toNat + 1) % 4096 →
      memRead (s.withFetchWord 16 w) addr = memRead s addr) ∧
    (∀ r, readReg (s.withFetchWord 16 w) r = readReg s r) ∧
    SameControl { s with halt := false } (s.withFetchWord 16 w) ∧ (s.withFetchWord 16 w).upper = s.upper

/-! ## Assembler notation -/

/-- Assembling what a word disassembles to gives back the word's two bytes, for every word. The notation is the spec's
decision D11 and D12 (entry 13). -/
def Obligations.AssembledDisassemblyIsTheWord : Prop :=
  ∀ w : Word, assemble [disassemble w] = some [highByte w, lowByte w]

/-- An operand out of range is refused and not reduced, and a mnemonic without an operand takes none. The notation is the
spec's decision D11 (entry 13). -/
def Obligations.AssemblerRefusesOperandsOutOfRange : Prop :=
  ∀ (m : Mnemonic) (n : Nat),
    (assemble [.operand m (.lit n)]).isSome = true ↔
      (m = .LDI ∧ n ≤ 255) ∨ ((m = .LDM ∨ m = .STR ∨ m = .JNZ) ∧ n ≤ 4095)
end

