-- ==== Sys2Proof/Laws/State.lean ====
section
/-! SUPPORT. One lemma per field per update, true by rfl, so that no later proof unfolds a record update. -/

namespace Sys2Proof.Machine

@[simp] theorem writeReg_A_a (s : State) (v : Byte) : (writeReg s .A v).a = v := rfl
@[simp] theorem writeReg_A_b (s : State) (v : Byte) : (writeReg s .A v).b = s.b := rfl
@[simp] theorem writeReg_A_c (s : State) (v : Byte) : (writeReg s .A v).c = s.c := rfl
@[simp] theorem writeReg_A_d (s : State) (v : Byte) : (writeReg s .A v).d = s.d := rfl
@[simp] theorem writeReg_A_e (s : State) (v : Byte) : (writeReg s .A v).e = s.e := rfl
@[simp] theorem writeReg_A_ip (s : State) (v : Byte) : (writeReg s .A v).ip = s.ip := rfl
@[simp] theorem writeReg_A_halt (s : State) (v : Byte) : (writeReg s .A v).halt = s.halt := rfl
@[simp] theorem writeReg_A_irOp (s : State) (v : Byte) : (writeReg s .A v).irOp = s.irOp := rfl
@[simp] theorem writeReg_A_irVal (s : State) (v : Byte) : (writeReg s .A v).irVal = s.irVal := rfl
@[simp] theorem writeReg_A_mem (s : State) (v : Byte) : (writeReg s .A v).mem = s.mem := rfl
@[simp] theorem writeReg_A_upper (s : State) (v : Byte) : (writeReg s .A v).upper = s.upper := rfl

@[simp] theorem writeReg_B_a (s : State) (v : Byte) : (writeReg s .B v).a = s.a := rfl
@[simp] theorem writeReg_B_b (s : State) (v : Byte) : (writeReg s .B v).b = v := rfl
@[simp] theorem writeReg_B_c (s : State) (v : Byte) : (writeReg s .B v).c = s.c := rfl
@[simp] theorem writeReg_B_d (s : State) (v : Byte) : (writeReg s .B v).d = s.d := rfl
@[simp] theorem writeReg_B_e (s : State) (v : Byte) : (writeReg s .B v).e = s.e := rfl
@[simp] theorem writeReg_B_ip (s : State) (v : Byte) : (writeReg s .B v).ip = s.ip := rfl
@[simp] theorem writeReg_B_halt (s : State) (v : Byte) : (writeReg s .B v).halt = s.halt := rfl
@[simp] theorem writeReg_B_irOp (s : State) (v : Byte) : (writeReg s .B v).irOp = s.irOp := rfl
@[simp] theorem writeReg_B_irVal (s : State) (v : Byte) : (writeReg s .B v).irVal = s.irVal := rfl
@[simp] theorem writeReg_B_mem (s : State) (v : Byte) : (writeReg s .B v).mem = s.mem := rfl
@[simp] theorem writeReg_B_upper (s : State) (v : Byte) : (writeReg s .B v).upper = s.upper := rfl

@[simp] theorem writeReg_C_a (s : State) (v : Byte) : (writeReg s .C v).a = s.a := rfl
@[simp] theorem writeReg_C_b (s : State) (v : Byte) : (writeReg s .C v).b = s.b := rfl
@[simp] theorem writeReg_C_c (s : State) (v : Byte) : (writeReg s .C v).c = v := rfl
@[simp] theorem writeReg_C_d (s : State) (v : Byte) : (writeReg s .C v).d = s.d := rfl
@[simp] theorem writeReg_C_e (s : State) (v : Byte) : (writeReg s .C v).e = s.e := rfl
@[simp] theorem writeReg_C_ip (s : State) (v : Byte) : (writeReg s .C v).ip = s.ip := rfl
@[simp] theorem writeReg_C_halt (s : State) (v : Byte) : (writeReg s .C v).halt = s.halt := rfl
@[simp] theorem writeReg_C_irOp (s : State) (v : Byte) : (writeReg s .C v).irOp = s.irOp := rfl
@[simp] theorem writeReg_C_irVal (s : State) (v : Byte) : (writeReg s .C v).irVal = s.irVal := rfl
@[simp] theorem writeReg_C_mem (s : State) (v : Byte) : (writeReg s .C v).mem = s.mem := rfl
@[simp] theorem writeReg_C_upper (s : State) (v : Byte) : (writeReg s .C v).upper = s.upper := rfl

@[simp] theorem writeReg_D_a (s : State) (v : Byte) : (writeReg s .D v).a = s.a := rfl
@[simp] theorem writeReg_D_b (s : State) (v : Byte) : (writeReg s .D v).b = s.b := rfl
@[simp] theorem writeReg_D_c (s : State) (v : Byte) : (writeReg s .D v).c = s.c := rfl
@[simp] theorem writeReg_D_d (s : State) (v : Byte) : (writeReg s .D v).d = v := rfl
@[simp] theorem writeReg_D_e (s : State) (v : Byte) : (writeReg s .D v).e = s.e := rfl
@[simp] theorem writeReg_D_ip (s : State) (v : Byte) : (writeReg s .D v).ip = s.ip := rfl
@[simp] theorem writeReg_D_halt (s : State) (v : Byte) : (writeReg s .D v).halt = s.halt := rfl
@[simp] theorem writeReg_D_irOp (s : State) (v : Byte) : (writeReg s .D v).irOp = s.irOp := rfl
@[simp] theorem writeReg_D_irVal (s : State) (v : Byte) : (writeReg s .D v).irVal = s.irVal := rfl
@[simp] theorem writeReg_D_mem (s : State) (v : Byte) : (writeReg s .D v).mem = s.mem := rfl
@[simp] theorem writeReg_D_upper (s : State) (v : Byte) : (writeReg s .D v).upper = s.upper := rfl

@[simp] theorem writeReg_E_a (s : State) (v : Byte) : (writeReg s .E v).a = s.a := rfl
@[simp] theorem writeReg_E_b (s : State) (v : Byte) : (writeReg s .E v).b = s.b := rfl
@[simp] theorem writeReg_E_c (s : State) (v : Byte) : (writeReg s .E v).c = s.c := rfl
@[simp] theorem writeReg_E_d (s : State) (v : Byte) : (writeReg s .E v).d = s.d := rfl
@[simp] theorem writeReg_E_e (s : State) (v : Byte) : (writeReg s .E v).e = v := rfl
@[simp] theorem writeReg_E_ip (s : State) (v : Byte) : (writeReg s .E v).ip = s.ip := rfl
@[simp] theorem writeReg_E_halt (s : State) (v : Byte) : (writeReg s .E v).halt = s.halt := rfl
@[simp] theorem writeReg_E_irOp (s : State) (v : Byte) : (writeReg s .E v).irOp = s.irOp := rfl
@[simp] theorem writeReg_E_irVal (s : State) (v : Byte) : (writeReg s .E v).irVal = s.irVal := rfl
@[simp] theorem writeReg_E_mem (s : State) (v : Byte) : (writeReg s .E v).mem = s.mem := rfl
@[simp] theorem writeReg_E_upper (s : State) (v : Byte) : (writeReg s .E v).upper = s.upper := rfl

@[simp] theorem memWrite_a (s : State) (addr : Nat) (v : Byte) : (memWrite s addr v).a = s.a := rfl
@[simp] theorem memWrite_b (s : State) (addr : Nat) (v : Byte) : (memWrite s addr v).b = s.b := rfl
@[simp] theorem memWrite_c (s : State) (addr : Nat) (v : Byte) : (memWrite s addr v).c = s.c := rfl
@[simp] theorem memWrite_d (s : State) (addr : Nat) (v : Byte) : (memWrite s addr v).d = s.d := rfl
@[simp] theorem memWrite_e (s : State) (addr : Nat) (v : Byte) : (memWrite s addr v).e = s.e := rfl
@[simp] theorem memWrite_ip (s : State) (addr : Nat) (v : Byte) : (memWrite s addr v).ip = s.ip := rfl
@[simp] theorem memWrite_halt (s : State) (addr : Nat) (v : Byte) : (memWrite s addr v).halt = s.halt := rfl
@[simp] theorem memWrite_irOp (s : State) (addr : Nat) (v : Byte) : (memWrite s addr v).irOp = s.irOp := rfl
@[simp] theorem memWrite_irVal (s : State) (addr : Nat) (v : Byte) : (memWrite s addr v).irVal = s.irVal := rfl
@[simp] theorem memWrite_mem (s : State) (addr : Nat) (v : Byte) : (memWrite s addr v).mem = cellSet s.mem (mask12 addr) v := rfl
@[simp] theorem memWrite_upper (s : State) (addr : Nat) (v : Byte) : (memWrite s addr v).upper = s.upper := rfl

@[simp] theorem setIp_a (s : State) (p : Addr) : (setIp s p).a = s.a := rfl
@[simp] theorem setIp_b (s : State) (p : Addr) : (setIp s p).b = s.b := rfl
@[simp] theorem setIp_c (s : State) (p : Addr) : (setIp s p).c = s.c := rfl
@[simp] theorem setIp_d (s : State) (p : Addr) : (setIp s p).d = s.d := rfl
@[simp] theorem setIp_e (s : State) (p : Addr) : (setIp s p).e = s.e := rfl
@[simp] theorem setIp_ip (s : State) (p : Addr) : (setIp s p).ip = p := rfl
@[simp] theorem setIp_halt (s : State) (p : Addr) : (setIp s p).halt = s.halt := rfl
@[simp] theorem setIp_irOp (s : State) (p : Addr) : (setIp s p).irOp = s.irOp := rfl
@[simp] theorem setIp_irVal (s : State) (p : Addr) : (setIp s p).irVal = s.irVal := rfl
@[simp] theorem setIp_mem (s : State) (p : Addr) : (setIp s p).mem = s.mem := rfl
@[simp] theorem setIp_upper (s : State) (p : Addr) : (setIp s p).upper = s.upper := rfl

@[simp] theorem setLatch_a (s : State) (op : Opcode) (val : Value) : (setLatch s op val).a = s.a := rfl
@[simp] theorem setLatch_b (s : State) (op : Opcode) (val : Value) : (setLatch s op val).b = s.b := rfl
@[simp] theorem setLatch_c (s : State) (op : Opcode) (val : Value) : (setLatch s op val).c = s.c := rfl
@[simp] theorem setLatch_d (s : State) (op : Opcode) (val : Value) : (setLatch s op val).d = s.d := rfl
@[simp] theorem setLatch_e (s : State) (op : Opcode) (val : Value) : (setLatch s op val).e = s.e := rfl
@[simp] theorem setLatch_ip (s : State) (op : Opcode) (val : Value) : (setLatch s op val).ip = s.ip := rfl
@[simp] theorem setLatch_halt (s : State) (op : Opcode) (val : Value) : (setLatch s op val).halt = s.halt := rfl
@[simp] theorem setLatch_irOp (s : State) (op : Opcode) (val : Value) : (setLatch s op val).irOp = op := rfl
@[simp] theorem setLatch_irVal (s : State) (op : Opcode) (val : Value) : (setLatch s op val).irVal = val := rfl
@[simp] theorem setLatch_mem (s : State) (op : Opcode) (val : Value) : (setLatch s op val).mem = s.mem := rfl
@[simp] theorem setLatch_upper (s : State) (op : Opcode) (val : Value) : (setLatch s op val).upper = s.upper := rfl

@[simp] theorem setHalt_a (s : State) : (setHalt s).a = s.a := rfl
@[simp] theorem setHalt_b (s : State) : (setHalt s).b = s.b := rfl
@[simp] theorem setHalt_c (s : State) : (setHalt s).c = s.c := rfl
@[simp] theorem setHalt_d (s : State) : (setHalt s).d = s.d := rfl
@[simp] theorem setHalt_e (s : State) : (setHalt s).e = s.e := rfl
@[simp] theorem setHalt_ip (s : State) : (setHalt s).ip = s.ip := rfl
@[simp] theorem setHalt_halt (s : State) : (setHalt s).halt = true := rfl
@[simp] theorem setHalt_irOp (s : State) : (setHalt s).irOp = s.irOp := rfl
@[simp] theorem setHalt_irVal (s : State) : (setHalt s).irVal = s.irVal := rfl
@[simp] theorem setHalt_mem (s : State) : (setHalt s).mem = s.mem := rfl
@[simp] theorem setHalt_upper (s : State) : (setHalt s).upper = s.upper := rfl

@[simp] theorem makeRunning_a (s : State) : (makeRunning s).a = s.a := rfl
@[simp] theorem makeRunning_b (s : State) : (makeRunning s).b = s.b := rfl
@[simp] theorem makeRunning_c (s : State) : (makeRunning s).c = s.c := rfl
@[simp] theorem makeRunning_d (s : State) : (makeRunning s).d = s.d := rfl
@[simp] theorem makeRunning_e (s : State) : (makeRunning s).e = s.e := rfl
@[simp] theorem makeRunning_ip (s : State) : (makeRunning s).ip = s.ip := rfl
@[simp] theorem makeRunning_halt (s : State) : (makeRunning s).halt = false := rfl
@[simp] theorem makeRunning_irOp (s : State) : (makeRunning s).irOp = s.irOp := rfl
@[simp] theorem makeRunning_irVal (s : State) : (makeRunning s).irVal = s.irVal := rfl
@[simp] theorem makeRunning_mem (s : State) : (makeRunning s).mem = s.mem := rfl
@[simp] theorem makeRunning_upper (s : State) : (makeRunning s).upper = s.upper := rfl

@[simp] theorem afterFetch_a (s : State) : (afterFetch s).a = s.a := rfl
@[simp] theorem afterFetch_b (s : State) : (afterFetch s).b = s.b := rfl
@[simp] theorem afterFetch_c (s : State) : (afterFetch s).c = s.c := rfl
@[simp] theorem afterFetch_d (s : State) : (afterFetch s).d = s.d := rfl
@[simp] theorem afterFetch_e (s : State) : (afterFetch s).e = s.e := rfl
@[simp] theorem afterFetch_ip (s : State) : (afterFetch s).ip = nextIp s.ip := rfl
@[simp] theorem afterFetch_halt (s : State) : (afterFetch s).halt = s.halt := rfl
@[simp] theorem afterFetch_irOp (s : State) : (afterFetch s).irOp = opcodeOf (fetchWord s) := rfl
@[simp] theorem afterFetch_irVal (s : State) : (afterFetch s).irVal = valueOf (fetchWord s) := rfl
@[simp] theorem afterFetch_mem (s : State) : (afterFetch s).mem = s.mem := rfl
@[simp] theorem afterFetch_upper (s : State) : (afterFetch s).upper = s.upper := rfl

@[simp] theorem readReg_A (s : State) : readReg s .A = s.a := rfl
@[simp] theorem readReg_B (s : State) : readReg s .B = s.b := rfl
@[simp] theorem readReg_C (s : State) : readReg s .C = s.c := rfl
@[simp] theorem readReg_D (s : State) : readReg s .D = s.d := rfl
@[simp] theorem readReg_E (s : State) : readReg s .E = s.e := rfl

/-- A write to a register, whichever it is, leaves IP, the halt flag, the latch and both memories. -/
theorem writeReg_control (s : State) (r : Reg) (v : Byte) :
    (writeReg s r v).ip = s.ip ∧ (writeReg s r v).halt = s.halt ∧ (writeReg s r v).irOp = s.irOp ∧
      (writeReg s r v).irVal = s.irVal ∧ (writeReg s r v).mem = s.mem ∧ (writeReg s r v).upper = s.upper := by
  cases r <;> exact ⟨rfl, rfl, rfl, rfl, rfl, rfl⟩

@[simp] theorem writeReg_ip (s : State) (r : Reg) (v : Byte) : (writeReg s r v).ip = s.ip := by cases r <;> rfl
@[simp] theorem writeReg_halt (s : State) (r : Reg) (v : Byte) : (writeReg s r v).halt = s.halt := by cases r <;> rfl
@[simp] theorem writeReg_irOp (s : State) (r : Reg) (v : Byte) : (writeReg s r v).irOp = s.irOp := by cases r <;> rfl
@[simp] theorem writeReg_irVal (s : State) (r : Reg) (v : Byte) : (writeReg s r v).irVal = s.irVal := by cases r <;> rfl
@[simp] theorem writeReg_mem (s : State) (r : Reg) (v : Byte) : (writeReg s r v).mem = s.mem := by cases r <;> rfl
@[simp] theorem writeReg_upper (s : State) (r : Reg) (v : Byte) : (writeReg s r v).upper = s.upper := by cases r <;> rfl

/-- What a register reads as after a write to one: the written value, or as before. -/
@[simp] theorem readReg_writeReg (s : State) (r q : Reg) (v : Byte) :
    readReg (writeReg s r v) q = if q = r then v else readReg s q := by
  cases r <;> cases q <;> rfl

@[simp] theorem readReg_memWrite (s : State) (addr : Nat) (v : Byte) (r : Reg) : readReg (memWrite s addr v) r = readReg s r := by cases r <;> rfl
@[simp] theorem readReg_setIp (s : State) (p : Addr) (r : Reg) : readReg (setIp s p) r = readReg s r := by cases r <;> rfl
@[simp] theorem readReg_setLatch (s : State) (op : Opcode) (val : Value) (r : Reg) : readReg (setLatch s op val) r = readReg s r := by cases r <;> rfl
@[simp] theorem readReg_setHalt (s : State) (r : Reg) : readReg (setHalt s) r = readReg s r := by cases r <;> rfl
@[simp] theorem readReg_makeRunning (s : State) (r : Reg) : readReg (makeRunning s) r = readReg s r := by cases r <;> rfl
@[simp] theorem readReg_afterFetch (s : State) (r : Reg) : readReg (afterFetch s) r = readReg s r := by cases r <;> rfl

@[simp] theorem memRead_writeReg (s : State) (r : Reg) (v : Byte) (x : Nat) : memRead (writeReg s r v) x = memRead s x := by cases r <;> rfl
@[simp] theorem memRead_setIp (s : State) (p : Addr) (x : Nat) : memRead (setIp s p) x = memRead s x := rfl
@[simp] theorem memRead_setLatch (s : State) (op : Opcode) (val : Value) (x : Nat) : memRead (setLatch s op val) x = memRead s x := rfl
@[simp] theorem memRead_setHalt (s : State) (x : Nat) : memRead (setHalt s) x = memRead s x := rfl
@[simp] theorem memRead_makeRunning (s : State) (x : Nat) : memRead (makeRunning s) x = memRead s x := rfl
@[simp] theorem memRead_afterFetch (s : State) (x : Nat) : memRead (afterFetch s) x = memRead s x := rfl

/-- Two states with equal fields are equal. -/
theorem state_ext {s t : State} (ha : s.a = t.a) (hb : s.b = t.b) (hc : s.c = t.c) (hd : s.d = t.d) (he : s.e = t.e)
    (hip : s.ip = t.ip) (hh : s.halt = t.halt) (ho : s.irOp = t.irOp) (hv : s.irVal = t.irVal) (hm : s.mem = t.mem)
    (hu : s.upper = t.upper) : s = t := by
  cases s; cases t; simp_all

end Sys2Proof.Machine
end

