-- ==== Sys2Proof/Laws/Memory.lean ====
section
/-! SUPPORT. The laws of memory: what a read gives after a write, and that every memory operation keeps the canonical
form. -/

namespace Sys2Proof.Machine

@[simp] theorem cellGet_nil (addr : Nat) : cellGet [] addr = unlistedByte := rfl

/-- Erasing an address makes it read as unlisted and leaves every other address. -/
theorem cellGet_cellErase (m : List Host.Cell) (addr x : Nat) :
    cellGet (cellErase m addr) x = if x = addr then unlistedByte else cellGet m x := by
  induction m with
  | nil => simp [cellErase]
  | cons cell rest ih =>
    obtain ⟨k, w⟩ := cell
    simp only [cellErase, List.filter_cons] at ih ⊢
    by_cases hk : k = addr <;> by_cases hx : k = x <;> simp_all [cellGet]

/-- What an address reads as after a write: the written byte at the address written, and as before elsewhere. It holds of
every memory, canonical or not. -/
theorem cellGet_cellSet (m : List Host.Cell) (addr x : Nat) (v : Byte) :
    cellGet (cellSet m addr v) x = if x = addr then v else cellGet m x := by
  induction m with
  | nil =>
    by_cases hv : v = unlistedByte <;> by_cases hx : x = addr <;> simp [cellSet, cellGet, hv, hx]
    omega
  | cons cell rest ih =>
    obtain ⟨k, w⟩ := cell
    simp only [cellSet]
    split
    · simp only [cellGet, ih]
      by_cases hx : k = x
      · have : x ≠ addr := by omega
        simp [hx, this]
      · simp [hx]
    · split
      · next hv => rw [cellGet_cellErase, hv]
      · rw [cellGet]
        by_cases hx : addr = x
        · simp [hx]
        · have : x ≠ addr := fun h => hx h.symm
          simp [hx, this, cellGet_cellErase]

/-- The canonical form with a lower first address. -/
theorem cellsWf_mono {lo lo' hi : Nat} (h : lo' ≤ lo) {m : List Host.Cell} (hm : cellsWf lo hi m = true) :
    cellsWf lo' hi m = true := by
  cases m with
  | nil => rfl
  | cons cell rest =>
    obtain ⟨k, w⟩ := cell
    simp only [cellsWf, Bool.and_eq_true, decide_eq_true_eq] at hm ⊢
    exact ⟨⟨⟨by omega, hm.1.1.2⟩, hm.1.2⟩, hm.2⟩

theorem cellErase_wf {lo hi addr : Nat} {m : List Host.Cell} (hm : cellsWf lo hi m = true) :
    cellsWf lo hi (cellErase m addr) = true := by
  induction m generalizing lo with
  | nil => rfl
  | cons cell rest ih =>
    obtain ⟨k, w⟩ := cell
    simp only [cellsWf, Bool.and_eq_true, decide_eq_true_eq] at hm
    simp only [cellErase, List.filter_cons] at ih ⊢
    split
    · simp only [cellsWf, Bool.and_eq_true, decide_eq_true_eq]
      exact ⟨hm.1, ih hm.2⟩
    · exact cellsWf_mono (by omega) (ih hm.2)

/-- Below its first address a canonical memory has nothing to erase. -/
theorem cellErase_below {lo hi addr : Nat} {m : List Host.Cell} (hm : cellsWf lo hi m = true) (h : addr < lo) :
    cellErase m addr = m := by
  induction m generalizing lo with
  | nil => rfl
  | cons cell rest ih =>
    obtain ⟨k, w⟩ := cell
    simp only [cellsWf, Bool.and_eq_true, decide_eq_true_eq] at hm
    have hk : k ≠ addr := by omega
    have := ih hm.2 (by omega)
    simp only [cellErase, List.filter_cons] at this ⊢
    simp [hk, this]

/-- A write within the bounds keeps the canonical form. -/
theorem cellSet_wf {lo hi addr : Nat} {v : Byte} {m : List Host.Cell} (hm : cellsWf lo hi m = true) (h1 : lo ≤ addr)
    (h2 : addr < hi) : cellsWf lo hi (cellSet m addr v) = true := by
  induction m generalizing lo with
  | nil =>
    simp only [cellSet]
    split
    · rfl
    · next hv => simp [cellsWf, h1, h2, hv]
  | cons cell rest ih =>
    obtain ⟨k, w⟩ := cell
    have hm' := hm
    simp only [cellsWf, Bool.and_eq_true, decide_eq_true_eq] at hm
    simp only [cellSet]
    split
    · simp only [cellsWf, Bool.and_eq_true, decide_eq_true_eq]
      exact ⟨hm.1, ih hm.2 (by omega)⟩
    · split
      · exact cellErase_wf hm'
      · next hk hv =>
        have hrest : cellsWf (addr + 1) hi (cellErase ((k, w) :: rest) addr) = true := by
          by_cases hka : k = addr
          · subst hka
            have := cellErase_wf (addr := k) hm.2
            simpa [cellErase, List.filter_cons] using this
          · have hlt : addr + 1 ≤ k := by omega
            rw [cellErase_below (lo := addr + 1) (hi := hi) _ (by omega)]
            · simp only [cellsWf, Bool.and_eq_true, decide_eq_true_eq]
              exact ⟨⟨⟨hlt, hm.1.1.2⟩, hm.1.2⟩, hm.2⟩
            · simp only [cellsWf, Bool.and_eq_true, decide_eq_true_eq]
              exact ⟨⟨⟨hlt, hm.1.1.2⟩, hm.1.2⟩, hm.2⟩
        simp only [cellsWf, Bool.and_eq_true, decide_eq_true_eq]
        exact ⟨⟨⟨h1, h2⟩, hv⟩, hrest⟩

/-- The bytes of a list laid out from `start` are in canonical form. -/
theorem cellsOfBytes_wf {start hi : Nat} {bytes : List Byte} (h : start + bytes.length ≤ hi) :
    cellsWf start hi (cellsOfBytes start bytes) = true := by
  induction bytes generalizing start with
  | nil => rfl
  | cons v rest ih =>
    simp only [List.length_cons] at h
    have hrest := ih (start := start + 1) (by omega)
    simp only [cellsOfBytes]
    split
    · exact cellsWf_mono (by omega) hrest
    · next hv =>
      simp only [cellsWf, Bool.and_eq_true, decide_eq_true_eq]
      exact ⟨⟨⟨le_refl _, by omega⟩, hv⟩, hrest⟩

/-- Below the first address of a layout nothing is listed. -/
theorem cellGet_cellsOfBytes_below {start x : Nat} {bytes : List Byte} (h : x < start) :
    cellGet (cellsOfBytes start bytes) x = unlistedByte := by
  induction bytes generalizing start with
  | nil => rfl
  | cons v rest ih =>
    simp only [cellsOfBytes]
    split
    · exact ih (by omega)
    · simp only [cellGet]
      rw [if_neg (by omega), ih (by omega)]

/-- The byte of a layout at `start + i` is byte `i` of the list, and past its end what an unlisted address reads as. -/
theorem cellGet_cellsOfBytes (start i : Nat) (bytes : List Byte) :
    cellGet (cellsOfBytes start bytes) (start + i) = bytes.getD i unlistedByte := by
  induction bytes generalizing start i with
  | nil => simp [cellsOfBytes]
  | cons v rest ih =>
    cases i with
    | zero =>
      simp only [cellsOfBytes]
      split
      · next hv => simp [cellGet_cellsOfBytes_below, hv]
      · simp [cellGet]
    | succ j =>
      have := ih (start + 1) j
      rw [show start + 1 + j = start + (j + 1) by omega] at this
      simp only [cellsOfBytes]
      split
      · simpa using this
      · rw [cellGet, if_neg (by omega)]
        simpa using this

/-- The port masks: an address and the same address plus 4096 are one (20_memory.md R52). -/
@[simp] theorem mask12_lt (addr : Nat) : mask12 addr < 4096 := Nat.mod_lt _ (by decide)

@[simp] theorem mask12_mask12 (addr : Nat) : mask12 (mask12 addr) = mask12 addr := Nat.mod_mod _ _

theorem mask12_of_lt {addr : Nat} (h : addr < 4096) : mask12 addr = addr := Nat.mod_eq_of_lt h

/-- What the port reads after a write through the port. -/
theorem memRead_memWrite (s : State) (addr x : Nat) (v : Byte) :
    memRead (memWrite s addr v) x = if mask12 x = mask12 addr then v else memRead s x := by
  simp [memRead, cellGet_cellSet]

/-- A write through the port keeps the window's canonical form. -/
theorem memWrite_wf {s : State} (h : Memory.wf s.mem = true) (addr : Nat) (v : Byte) :
    Memory.wf (memWrite s addr v).mem = true :=
  cellSet_wf h (Nat.zero_le _) (mask12_lt addr)

end Sys2Proof.Machine
end

