-- ==== Sys2Proof/Laws/Ops.lean ====
section
/-! SUPPORT. For each shared operation, what it does, said once: cite these and do not unfold the operation. -/

namespace Sys2Proof.Machine

/-- Everything `swapWithA` does to the registers. -/
theorem readReg_swapWithA (s : State) (r q : Reg) :
    readReg (swapWithA s r) q = if q = r then readReg s .A else if q = .A then readReg s r else readReg s q := by
  cases r <;> cases q <;> rfl

/-- `swapWithA` leaves IP, the halt flag, the latch and both memories. -/
theorem swapWithA_control (s : State) (r : Reg) :
    (swapWithA s r).ip = s.ip ∧ (swapWithA s r).halt = s.halt ∧ (swapWithA s r).irOp = s.irOp ∧
      (swapWithA s r).irVal = s.irVal ∧ (swapWithA s r).mem = s.mem ∧ (swapWithA s r).upper = s.upper := by
  cases r <;> exact ⟨rfl, rfl, rfl, rfl, rfl, rfl⟩

/-- Everything `aluInto` does: A takes the result of B and C. -/
theorem aluInto_eq (f : Byte → Byte → Byte) (s : State) : aluInto f s = writeReg s .A (f s.b s.c) := rfl

/-- The address after an instruction, as a number (10_state.md R32). -/
theorem nextIp_toNat (p : Addr) : (nextIp p).toNat = (p.toNat + 2) % 4096 := by
  simp [nextIp, BitVec.toNat_add]

/-- JNZ's target, as a number (42_control.md R130). -/
theorem jumpTarget_toNat (base : Byte) (val : Value) :
    (jumpTarget base val).toNat = (base.toNat + val.toNat) % 4096 := by
  simp only [jumpTarget, BitVec.toNat_add, BitVec.toNat_setWidth]
  have := base.isLt
  omega

/-- LDI's immediate, as a number. -/
theorem imm8_toNat (val : Value) : (imm8 val).toNat = val.toNat % 256 := by
  simp [imm8, BitVec.extractLsb'_toNat]

/-- The sum, as a number. -/
theorem aluAdd_toNat (b c : Byte) : (aluAdd b c).toNat = (b.toNat + c.toNat) % 256 := by
  simp [aluAdd, BitVec.toNat_add]

/-- The difference, as a number. -/
theorem aluSub_toNat (b c : Byte) : (aluSub b c).toNat = (b.toNat + 256 - c.toNat) % 256 := by
  simp only [aluSub, BitVec.toNat_sub]
  have := c.isLt
  omega

/-- The complement, as a number. -/
theorem aluNot_toNat (b : Byte) : (aluNot b).toNat = 255 - b.toNat := by
  simp [aluNot, BitVec.toNat_not]

/-- The left shift, as a number, for every count. -/
theorem aluShl_toNat (b c : Byte) : (aluShl b c).toNat = b.toNat * 2 ^ c.toNat % 256 := by
  simp [aluShl, Nat.shiftLeft_eq]

/-- The right shift, as a number, for every count. -/
theorem aluShr_toNat (b c : Byte) : (aluShr b c).toNat = b.toNat / 2 ^ c.toNat := by
  simp only [aluShr, BitVec.toNat_ofNat, Nat.shiftRight_eq_div_pow]
  exact Nat.mod_eq_of_lt (lt_of_le_of_lt (Nat.div_le_self _ _) b.isLt)

/-- The window byte at `ip`, as the fetch port reads it. -/
theorem fetchWord_toNat (s : State) :
    (fetchWord s).toNat = (memRead s s.ip.toNat).toNat * 256 + (memRead s (s.ip.toNat + 1)).toNat := by
  simp only [fetchWord, wordOfBytes, BitVec.toNat_append]
  rw [← Nat.shiftLeft_add_eq_or_of_lt (by exact BitVec.isLt _), Nat.shiftLeft_eq]

end Sys2Proof.Machine
end

