-- ==== Sys2Proof/Laws/Exec.lean ====
section
/-! SUPPORT. What each arm of exec answers, in the named operations, so that no proof unfolds the dispatch. -/

namespace Sys2Proof.Machine

@[simp] theorem exec_ldi (v : Value) (s : State) : exec (.ldi v) s = .next (writeReg s .A (imm8 v)) := rfl
@[simp] theorem exec_ldm (v : Value) (s : State) : exec (.ldm v) s = .next (writeReg s .A (memRead s v.toNat)) := rfl
@[simp] theorem exec_str (v : Value) (s : State) : exec (.str v) s = .next (memWrite s v.toNat s.a) := rfl
@[simp] theorem exec_add (v : Value) (s : State) : exec (.add v) s = .next (writeReg s .A (aluAdd s.b s.c)) := rfl
@[simp] theorem exec_sub (v : Value) (s : State) : exec (.sub v) s = .next (writeReg s .A (aluSub s.b s.c)) := rfl
theorem exec_jnz (v : Value) (s : State) :
    exec (.jnz v) s = if s.d = 0 then .next s else .next (setIp s (jumpTarget s.a v)) := rfl

/-- JNZ with D = 0 answers the state itself. -/
theorem exec_jnz_notTaken (v : Value) {s : State} (h : s.d = 0) : exec (.jnz v) s = .next s := by
  rw [exec_jnz, if_pos h]

/-- JNZ with D ≠ 0 answers the state with IP at the target. -/
theorem exec_jnz_taken (v : Value) {s : State} (h : s.d ≠ 0) :
    exec (.jnz v) s = .next (setIp s (jumpTarget s.a v)) := by
  rw [exec_jnz, if_neg h]

@[simp] theorem exec_swb (v : Value) (s : State) : exec (.swb v) s = .next (swapWithA s .B) := rfl
@[simp] theorem exec_swc (v : Value) (s : State) : exec (.swc v) s = .next (swapWithA s .C) := rfl
@[simp] theorem exec_swd (v : Value) (s : State) : exec (.swd v) s = .next (swapWithA s .D) := rfl
@[simp] theorem exec_swe (v : Value) (s : State) : exec (.swe v) s = .next (swapWithA s .E) := rfl
@[simp] theorem exec_or (v : Value) (s : State) : exec (.or v) s = .next (writeReg s .A (aluOr s.b s.c)) := rfl
@[simp] theorem exec_and (v : Value) (s : State) : exec (.and v) s = .next (writeReg s .A (aluAnd s.b s.c)) := rfl
@[simp] theorem exec_not (v : Value) (s : State) : exec (.not v) s = .next (writeReg s .A (aluNot s.b)) := rfl
@[simp] theorem exec_shl (v : Value) (s : State) : exec (.shl v) s = .next (writeReg s .A (aluShl s.b s.c)) := rfl
@[simp] theorem exec_shr (v : Value) (s : State) : exec (.shr v) s = .next (writeReg s .A (aluShr s.b s.c)) := rfl
@[simp] theorem exec_hlt (v : Value) (s : State) : exec (.hlt v) s = .next (setHalt s) := rfl

/-- A halted step answers the state itself (30_encoding.md R93). -/
theorem step_halted {s : State} (h : s.halt = true) : step s = .next s := by simp [step, halted, h]

/-- A running step is exec of the decoded word at the state after the fetch (30_encoding.md R90). -/
theorem step_running {s : State} (h : s.halt = false) : step s = exec (decode (fetchWord s)) (afterFetch s) := by
  simp [step, halted, h]

end Sys2Proof.Machine
end

