-- ==== Sys2Proof/Laws/Loader.lean ====
section
/-! SUPPORT. What booting answers, said once. -/

namespace Sys2Proof.Machine

/-- An image the loader accepts boots to the loaded reset state. -/
theorem boot_of_le {image : List Byte} (h : image.length ≤ 8192) : boot (some image) = .ready (loadImage image) := if_pos h

/-- A longer image is refused, and no state results. -/
theorem boot_of_gt {image : List Byte} (h : 8192 < image.length) : boot (some image) = .loadTooLarge :=
  if_neg (Nat.not_le.mpr h)

/-- A block that is ready was booted from an image the loader accepts, and is the loaded reset state. -/
theorem boot_ready {image : List Byte} {s : State} (h : boot (some image) = .ready s) :
    image.length ≤ 8192 ∧ s = loadImage image := by
  by_cases hl : image.length ≤ 8192
  · rw [boot_of_le hl] at h
    cases h
    exact ⟨hl, rfl⟩
  · rw [boot_of_gt (Nat.not_le.mp hl)] at h
    cases h

end Sys2Proof.Machine
end

