-- ==== Sys2Proof/Laws/PerInstr.lean ====
section
/-! SUPPORT. What holds of every instruction as syntax, proved one constructor at a time: the encoder puts the opcode of
the opcode map in the top four bits and the value field below it (30_encoding.md R80, R84). -/

namespace Sys2Proof.Laws.EncodeFields

/-- The decoder's two fields of the encoded word are the instruction's opcode and its value field. -/
def Statement (i : Instr) : Prop := opcodeOf (encode i) = opcode i ∧ valueOf (encode i) = valueField i

/-- The number of a word put together from an opcode and a value. -/
theorem toNat_append (op : Opcode) (v : Value) : (op ++ v : Word).toNat = op.toNat * 4096 + v.toNat := by
  have h : (op ++ v : Word).toNat = op.toNat <<< 12 ||| v.toNat := BitVec.toNat_append ..
  rw [h, ← Nat.shiftLeft_add_eq_or_of_lt v.isLt, Nat.shiftLeft_eq]

/-- The fields of a word put together from an opcode and a value. -/
theorem fields_of_append (op : Opcode) (v : Value) :
    opcodeOf (op ++ v : Word) = op ∧ valueOf (op ++ v : Word) = v := by
  have ho := op.isLt
  have hv := v.isLt
  constructor <;> apply BitVec.eq_of_toNat_eq
  · rw [opcodeOf, BitVec.extractLsb'_toNat, toNat_append, Nat.shiftRight_eq_div_pow]
    omega
  · rw [valueOf, BitVec.extractLsb'_toNat, toNat_append, Nat.shiftRight_eq_div_pow]
    omega

theorem ldi (v : Value) : Statement (.ldi v) := fields_of_append _ _
theorem ldm (v : Value) : Statement (.ldm v) := fields_of_append _ _
theorem str (v : Value) : Statement (.str v) := fields_of_append _ _
theorem add (v : Value) : Statement (.add v) := fields_of_append _ _
theorem sub (v : Value) : Statement (.sub v) := fields_of_append _ _
theorem jnz (v : Value) : Statement (.jnz v) := fields_of_append _ _
theorem swb (v : Value) : Statement (.swb v) := fields_of_append _ _
theorem swc (v : Value) : Statement (.swc v) := fields_of_append _ _
theorem swd (v : Value) : Statement (.swd v) := fields_of_append _ _
theorem swe (v : Value) : Statement (.swe v) := fields_of_append _ _
theorem or (v : Value) : Statement (.or v) := fields_of_append _ _
theorem and (v : Value) : Statement (.and v) := fields_of_append _ _
theorem not (v : Value) : Statement (.not v) := fields_of_append _ _
theorem shl (v : Value) : Statement (.shl v) := fields_of_append _ _
theorem shr (v : Value) : Statement (.shr v) := fields_of_append _ _
theorem hlt (v : Value) : Statement (.hlt v) := fields_of_append _ _

end Sys2Proof.Laws.EncodeFields
end

