-- ==== Sys2Proof/Laws/Run.lean ====
section
/-! SUPPORT. Runs of several steps, one step at a time. -/

namespace Sys2Proof.Machine

/-- No steps reach the state itself and no other. -/
theorem reaches_zero {s t : State} : Reaches s 0 t ↔ t = s := by
  constructor
  · intro h
    cases h
    rfl
  · intro h
    cases h
    rfl

/-- A run of one step more is the step and then the run. -/
theorem reaches_succ {s t u : State} {k : Nat} (h : step s = .next t) : Reaches s (k + 1) u ↔ Reaches t k u := by
  have h' : Sys2Proof.core.step s = .next t := h
  simp only [Reaches, Host.Core.run, h']

end Sys2Proof.Machine
end

