-- ==== Sys2Proof/Tests/Slice0.lean ====
section
/-! SUPPORT. The model's own tests. Expected values come from 95_test_vectors.md (the vector's id stands in the test's
name) or by hand from the rule named. -/

namespace Sys2Proof.Tests

open Sys2Proof.Machine

/-! ## Well-formedness: what each check refuses -/

theorem test_ldi_with_an_ignored_bit_is_not_canonical : (Instr.ldi 0x100).canonical = false := by decide
theorem test_operandless_with_an_ignored_bit_are_not_canonical :
    [Instr.add 1, .sub 1, .swb 1, .swc 1, .swd 1, .swe 1, .or 1, .and 1, .not 1, .shl 1, .shr 1, .hlt 1].all
      (fun i => !i.canonical) = true := by decide
theorem test_canonical_accepts :
    [Instr.ldi 0xFF, .ldm 0xFFF, .str 0xFFF, .jnz 0xFFF, .add 0, .hlt 0].all Instr.canonical = true := by decide
theorem test_ldi_256_refused : (AsmLine.operand .LDI (.lit 256)).wf = false := by decide
theorem test_ldi_255_accepted : (AsmLine.operand .LDI (.lit 255)).wf = true := by decide
theorem test_address_4096_refused :
    [Mnemonic.LDM, .STR, .JNZ].all (fun m => !(AsmLine.operand m (.lit 4096)).wf) = true := by decide
theorem test_operand_on_operandless_refused :
    [Mnemonic.ADD, .SUB, .SWB, .SWC, .SWD, .SWE, .OR, .AND, .NOT, .SHL, .SHR, .HLT].all
      (fun m => !(AsmLine.operand m (.lit 0)).wf) = true := by decide
theorem test_missing_operand_refused :
    [Mnemonic.LDI, .LDM, .STR, .JNZ].all (fun m => !(AsmLine.plain m).wf) = true := by decide
theorem test_byte_256_refused : (AsmLine.byte (.lit 256)).wf = false := by decide
theorem test_word_65536_refused : (AsmLine.word (.lit 65536)).wf = false := by decide

/-! ## Decoding: one word of each constructor, written out bit by bit from the encoding column of the opcode table -/

theorem test_decode_ldi_E6 : decode 0b0000111100101010#16 = .ldi 0xF2A := by decide
theorem test_decode_ldm_E4 : decode 0b0001101010111100#16 = .ldm 0xABC := by decide
theorem test_decode_str_S1 : decode 0b0010000000001110#16 = .str 0x00E := by decide
theorem test_decode_add_A5 : decode 0b0011101010111100#16 = .add 0xABC := by decide
theorem test_decode_sub : decode 0b0100000000000001#16 = .sub 0x001 := by decide
theorem test_decode_jnz_J3 : decode 0b0101111111111000#16 = .jnz 0xFF8 := by decide
theorem test_decode_swb : decode 0b0110100000000000#16 = .swb 0x800 := by decide
theorem test_decode_swc : decode 0b0111000000000000#16 = .swc 0x000 := by decide
theorem test_decode_swd_E5 : decode 0b1000000000000000#16 = .swd 0x000 := by decide
theorem test_decode_swe_W6 : decode 0b1001111111111111#16 = .swe 0xFFF := by decide
theorem test_decode_or : decode 0b1010000000000000#16 = .or 0x000 := by decide
theorem test_decode_and : decode 0b1011000000000100#16 = .and 0x004 := by decide
theorem test_decode_not : decode 0b1100000000000000#16 = .not 0x000 := by decide
theorem test_decode_shl : decode 0b1101000000000000#16 = .shl 0x000 := by decide
theorem test_decode_shr : decode 0b1110000100000000#16 = .shr 0x100 := by decide
theorem test_decode_hlt_E3 : decode 0b1111111111111111#16 = .hlt 0xFFF := by decide
theorem test_decode_bytes_E2 : decodeBytes [0x50, 0x04, 0x77] = .instr (.jnz 4) [0x77] := by decide
theorem test_decode_one_byte_truncated : decodeBytes [0x50] = .truncated := by decide
theorem test_encode_bytes_L1 : encodeBytes (.ldi 3) = [0x00, 0x03] := by decide
theorem test_table_word : decodeTableWord 16 0x1ABC = some (.ldm 0xABC) := by decide
theorem test_table_word_too_long : decodeTableWord 32 0x1ABC = none := by decide

/-! ## One step on the vectors. A vector stands at `p` in a state whose other registers are 0. -/

/-- The state before a vector: the word at `p`. -/
def before (p : Addr) (w : Word) (s : State) : State := placeWord { s with ip := p } w

/-- The state after one step, if there is one. -/
def after (s : State) : Option State :=
  match step s with
  | .next t => some t
  | .fault _ => none
  | .refused _ => none

/-- A memory with one byte set. -/
def withByte (addr : Nat) (v : Byte) : State := memWrite State.reset addr v

theorem test_ldi_L1 : (after (before 0x010 0x0003 { State.reset with a := 0x77 })).map status =
    some ⟨0x03, 0, 0, 0, 0, 0x012, false, 0, 0x003⟩ := by decide
theorem test_ldi_L2 : (after (before 0x010 0x0F2A State.reset)).map (fun t => (t.a, t.irVal)) = some (0x2A, 0xF2A) := by
  decide
theorem test_ldm_LM1 : (after (before 0x010 0x1100 (withByte 0x100 0x42))).map (·.a) = some 0x42 := by decide
theorem test_ldm_LM3 : (after (before 0x010 0x1010 State.reset)).map (·.a) = some 0x10 := by decide
theorem test_str_S1 : (after (before 0x010 0x200E { State.reset with a := 0xF0 })).map
    (fun t => (memRead t 0x00E, t.a)) = some (0xF0, 0xF0) := by decide
theorem test_str_S3 : (after (before 0x010 0x2010 State.reset)).map
    (fun t => (memRead t 0x010, memRead t 0x011, t.ip, t.irOp)) = some (0x00, 0x10, 0x012, 2) := by decide
theorem test_add_A3 : (after (before 0x010 0x3000 { State.reset with b := 0xFF, c := 0xFF })).map (·.a) = some 0xFE := by
  decide
theorem test_add_A5 : (after (before 0x010 0x3ABC { State.reset with a := 0x99, b := 0x12, c := 0x34 })).map status =
    some ⟨0x46, 0x12, 0x34, 0, 0, 0x012, false, 3, 0xABC⟩ := by decide
theorem test_sub_U1 : (after (before 0x010 0x4000 { State.reset with c := 0x01 })).map (·.a) = some 0xFF := by decide
theorem test_sub_U5 : (after (before 0x010 0x4000 { State.reset with b := 0x80, c := 0x01 })).map (·.a) = some 0x7F := by
  decide
theorem test_jnz_J3 : (after (before 0x010 0x5FF8 { State.reset with a := 0x10, d := 0x01 })).map (·.ip) = some 0x008 := by
  decide
theorem test_jnz_J6 : (after (before 0xFFE 0x5004 { State.reset with a := 0x04 })).map status =
    some ⟨0x04, 0, 0, 0, 0, 0x000, false, 5, 0x004⟩ := by decide
theorem test_swb : (after (before 0x010 0x6000 { State.reset with a := 0x05, b := 0x07, c := 0x09 })).map status =
    some ⟨0x07, 0x05, 0x09, 0, 0, 0x012, false, 6, 0⟩ := by decide
theorem test_swc : (after (before 0x010 0x7000 { State.reset with a := 0x05, b := 0x07, c := 0x09 })).map status =
    some ⟨0x09, 0x07, 0x05, 0, 0, 0x012, false, 7, 0⟩ := by decide
theorem test_swd : (after (before 0x010 0x8000 { State.reset with a := 0x03, d := 0x08, e := 0x09 })).map status =
    some ⟨0x08, 0, 0, 0x03, 0x09, 0x012, false, 8, 0⟩ := by decide
theorem test_swe_W6 : (after (before 0x010 0x9FFF { State.reset with a := 0xAA, e := 0x55 })).map status =
    some ⟨0x55, 0, 0, 0, 0xAA, 0x012, false, 9, 0xFFF⟩ := by decide
theorem test_or_G1 : (after (before 0x010 0xA000 { State.reset with b := 0xC5, c := 0x3A })).map (·.a) = some 0xFF := by
  decide
theorem test_and_G4 : (after (before 0x010 0xB000 { State.reset with b := 0xF0, c := 0x3C })).map (·.a) = some 0x30 := by
  decide
theorem test_not_G5 : (after (before 0x010 0xC000 { State.reset with b := 0xC5, c := 0x77 })).map (·.a) = some 0x3A := by
  decide
theorem test_shl_H1 : (after (before 0x010 0xD000 { State.reset with b := 0xC5, c := 0x03 })).map (·.a) = some 0x28 := by
  decide
theorem test_shl_H7 : (after (before 0x010 0xD000 { State.reset with b := 0x01, c := 0x20 })).map (·.a) = some 0x00 := by
  decide
theorem test_shr_R1 : (after (before 0x010 0xE000 { State.reset with b := 0xC5, c := 0x03 })).map (·.a) = some 0x18 := by
  decide
theorem test_shr_R5 : (after (before 0x010 0xE000 { State.reset with b := 0xFF, c := 0xC8 })).map (·.a) = some 0x00 := by
  decide
theorem test_hlt_T1 : (after (before 0x010 0xF000 { State.reset with a := 1, b := 2, c := 3, d := 4, e := 5 })).map status =
    some ⟨1, 2, 3, 4, 5, 0x012, true, 15, 0⟩ := by decide
theorem test_hlt_T4 : (after (before 0xFFE 0xF000 State.reset)).bind after = after (before 0xFFE 0xF000 State.reset) := by
  decide

/-! ## Fetch, port, loader, notation -/

theorem test_fetch_F3 : (after (before 0xFFF 0xF000 State.reset)).map (fun t => (t.halt, t.ip)) = some (true, 0x001) := by
  decide
theorem test_fetch_F4 : (after (before 0x005 0x007B State.reset)).map (fun t => (t.a, t.ip, t.irOp, t.irVal)) =
    some (0x7B, 0x007, 0, 0x07B) := by decide
theorem test_port_M3 : memRead (withByte 0 0x3C) 0x1000 = 0x3C := by decide
theorem test_port_M4 : (withByte 0x1001 0x99).mem = [(1, 0x99)] := by decide
theorem test_write_of_zero_unlists : (memWrite (withByte 0x010 0x99) 0x010 0).mem = [] := by decide
theorem test_boot_B1 : boot (some [0x00, 0x03, 0xF0, 0x00]) =
    .ready { State.reset with mem := [(1, 0x03), (2, 0xF0)] } := by decide
theorem test_boot_B2 : boot (some (List.replicate 8193 0)) = .loadTooLarge :=
  boot_of_gt (Nat.lt_of_lt_of_eq (by decide) List.length_replicate.symm)
theorem test_assemble_P4 : assemble
      [.operand .LDI (.lit 1), .plain .SWD, .operand .LDI (.lit 0xFF), .operand .JNZ (.lit 0xF00)] =
    some [0x00, 0x01, 0x80, 0x00, 0x00, 0xFF, 0x5F, 0x00] := by decide
/-- By hand from 30_encoding.md R88: the label stands at 2, after the two bytes of LDM. -/
theorem test_assemble_label : assemble [.operand .LDM (.label "x"), .label "x", .byte (.lit 0x42)] =
    some [0x10, 0x02, 0x42] := by decide
theorem test_assemble_undefined_label_refused : assemble [.operand .LDM (.label "x")] = none := by decide
theorem test_disassemble_ignored_bits : disassemble 0x0F2A = .word (.lit 0x0F2A) := by decide
theorem test_disassemble_L1 : disassemble 0x0003 = .operand .LDI (.lit 3) := by decide
theorem test_with_fetch_word : (after (State.reset.withFetchWord 16 0x007B)).map (·.a) = some 0x7B := by decide
theorem test_run_to_halt : runToHalt 5 (before 0 0xF000 State.reset) = step (before 0 0xF000 State.reset) := rfl

/-! ## Witnesses: concrete states and operands that meet the hypotheses of each statement that has any -/

theorem test_witness_EveryStepKeepsMemoryInvariant :
    ∃ t, (before 0x010 0x2100 { State.reset with a := 5 }).Inv ∧
      step (before 0x010 0x2100 { State.reset with a := 5 }) = .next t ∧ memRead t 0x100 = 5 :=
  ⟨_, ⟨rfl, rfl⟩, rfl, by decide⟩
theorem test_witness_MemoriesThatReadAlikeAreEqual :
    (withByte 7 9).Inv ∧ State.Inv { withByte 7 9 with a := 1 } ∧
      ∀ addr, addr < 4096 → memRead (withByte 7 9) addr = memRead { withByte 7 9 with a := 1 } addr :=
  ⟨⟨rfl, rfl⟩, ⟨rfl, rfl⟩, fun _ _ => rfl⟩
theorem test_witness_StepRunsDecodedInstruction :
    (before 0xFFF 0x3000 State.reset).halt = false ∧
      decode (wordOfBytes (memRead (before 0xFFF 0x3000 State.reset) 0xFFF)
        (memRead (before 0xFFF 0x3000 State.reset) ((0xFFF + 1) % 4096))) = .add 0 := by decide
theorem test_witness_IpAfterAStep_halted :
    ({ State.reset with halt := true } : State).halt = true ∧
      ∃ t, step { State.reset with halt := true } = .next t := ⟨rfl, _, rfl⟩
theorem test_witness_IpAfterAStep_taken :
    (before 0x010 0x5F00 { State.reset with a := 0xFF, d := 1 }).halt = false ∧
      decode (fetchWord (before 0x010 0x5F00 { State.reset with a := 0xFF, d := 1 })) = .jnz 0xF00 ∧
      (before 0x010 0x5F00 { State.reset with a := 0xFF, d := 1 }).d ≠ 0 := by decide
theorem test_witness_IpAfterAStep_notTaken :
    (before 0xFFE 0x5004 State.reset).halt = false ∧
      ((∃ v, decode (fetchWord (before 0xFFE 0x5004 State.reset)) = .jnz v) →
        (before 0xFFE 0x5004 State.reset).d = 0) := ⟨by decide, fun _ => by decide⟩
theorem test_witness_OnlyTheNamedInstructionsWrite :
    (∃ t, exec (.jnz 5) { State.reset with d := 1 } = .next t ∧ t.ip ≠ State.reset.ip) ∧
    (∃ t, exec (.hlt 0) State.reset = .next t ∧ t.halt ≠ State.reset.halt) ∧
    (∃ t, exec (.str 0xFFF) { State.reset with a := 1 } = .next t ∧ memRead t 0xFFF ≠ memRead State.reset 0xFFF) :=
  ⟨⟨_, rfl, by decide⟩, ⟨_, rfl, by decide⟩, ⟨_, rfl, by decide⟩⟩
theorem test_witness_LatchRecordsTheLastDecode :
    (∃ t, (before 0x010 0x3ABC State.reset).halt = false ∧ step (before 0x010 0x3ABC State.reset) = .next t) ∧
    (∃ t, step { State.reset with halt := true, irOp := 3 } = .next t) ∧ ∃ t, exec (.add 0) State.reset = .next t :=
  ⟨⟨_, rfl, rfl⟩, ⟨_, rfl⟩, ⟨_, rfl⟩⟩
theorem test_witness_NoStepReachesTheUpperHalf :
    ∃ t, step { before 0xFFF 0x1FFF State.reset with upper := [(4096, 9)] } = .next t := ⟨_, rfl⟩
theorem test_witness_IgnoredBitsHaveNoEffect :
    usedBits 0x0F2A#16 = usedBits 0x002A#16 ∧ usedBits 0x3ABC#16 = usedBits 0x3000#16 ∧
      usedBits 0xFFFF#16 = usedBits 0xF000#16 ∧ usedBits 0x1ABC#16 = 0x1ABC#16 := by decide
theorem test_witness_WriteReplacesOneByteOnly :
    0x1FFF % 4096 = 0xFFF % 4096 ∧ 0x1000 % 4096 ≠ 0xFFF % 4096 := by decide
theorem test_witness_FetchIsBigEndianAndWraps : (before 0xFFF 0xF000 State.reset).ip = 0xFFF := by decide
theorem test_witness_StoreIsSeenByTheNextFetch :
    (before 0xFFE 0x2000 { State.reset with a := 0xF0 }).halt = false ∧
      fetchWord (before 0xFFE 0x2000 { State.reset with a := 0xF0 }) = 0b0010#4 ++ (0 : Value) ∧
      (0 : Value).toNat = ((before 0xFFE 0x2000 { State.reset with a := 0xF0 }).ip.toNat + 2) % 4096 := by decide
/-- A state with `STR X` at 0x010 and `LDM X` at 0x012. -/
def storeThenLoad (X : Value) : State :=
  before 0x010 (encode (.str X)) (before 0x012 (encode (.ldm X)) { State.reset with a := 0x5A })
/-- X at both edges of what the LDM word occupies: the byte before it (the STR's own low byte) and the byte after it. -/
theorem test_witness_StoreThenLoadRoundTrip :
    [(0x011 : Value), 0x014].all (fun X => (storeThenLoad X).halt == false &&
      fetchWord (storeThenLoad X) == (0b0010#4 ++ X : Word) &&
      wordOfBytes (memRead (storeThenLoad X) ((storeThenLoad X).ip.toNat + 2))
        (memRead (storeThenLoad X) ((storeThenLoad X).ip.toNat + 3)) == (0b0001#4 ++ X : Word) &&
      X.toNat != ((storeThenLoad X).ip.toNat + 2) % 4096 && X.toNat != ((storeThenLoad X).ip.toNat + 3) % 4096) = true := by
  decide
theorem test_witness_LdmLoadsTheAddressedByte :
    (before 0x010 0x1010 State.reset).halt = false ∧
      fetchWord (before 0x010 0x1010 State.reset) = 0b0001#4 ++ (before 0x010 0x1010 State.reset).ip := by decide
theorem test_witness_StrStoresAAtTheAddressedByte :
    (before 0x010 0x2011 { State.reset with a := 0x77 }).halt = false ∧
      fetchWord (before 0x010 0x2011 { State.reset with a := 0x77 }) = 0b0010#4 ++ (0x011 : Value) ∧
      mask12 0x012 ≠ mask12 (addr12 0x011) := by decide
theorem test_witness_JnzJumpsWhenDIsNotZero :
    readReg { State.reset with a := 4 } .D = 0 ∧ readReg { State.reset with d := 0x80 } .D ≠ 0 := by decide
theorem test_witness_JnzToItselfNeverHalts :
    (before 0x010 0x500F { State.reset with a := 1, d := 1 }).halt = false ∧
      fetchWord (before 0x010 0x500F { State.reset with a := 1, d := 1 }) = 0b0101#4 ++ (0x00F : Value) ∧
      (before 0x010 0x500F { State.reset with a := 1, d := 1 }).d ≠ 0 ∧
      ((before 0x010 0x500F { State.reset with a := 1, d := 1 }).a.toNat + (0x00F : Value).toNat) % 4096 =
        (before 0x010 0x500F { State.reset with a := 1, d := 1 }).ip.toNat := by decide
theorem test_witness_SwbExchangesAAndB :
    ∃ t, exec (.swb 0) { State.reset with a := 1 } = .next t ∧ readReg t .B ≠ readReg { State.reset with a := 1 } .B :=
  ⟨_, rfl, by decide⟩
theorem test_witness_SwcExchangesAAndC :
    ∃ t, exec (.swc 0) { State.reset with a := 1 } = .next t ∧ readReg t .C ≠ readReg { State.reset with a := 1 } .C :=
  ⟨_, rfl, by decide⟩
theorem test_witness_SwdExchangesAAndD :
    ∃ t, exec (.swd 0) { State.reset with a := 1 } = .next t ∧ readReg t .D ≠ readReg { State.reset with a := 1 } .D :=
  ⟨_, rfl, by decide⟩
theorem test_witness_SweExchangesAAndE :
    ∃ t, exec (.add 0) { State.reset with e := 9 } = .next t ∧ ∀ v, Instr.add 0 ≠ .swe v :=
  ⟨_, rfl, fun _ h => by cases h⟩
theorem test_witness_shifts_by_eight_or_more :
    8 ≤ (readReg { State.reset with c := 8 } .C).toNat ∧ 8 ≤ (readReg { State.reset with c := 255 } .C).toNat := by decide
theorem test_witness_HltSetsTheHaltFlagOnly :
    (before 0xFFE 0xFABC State.reset).halt = false ∧
      fetchWord (before 0xFFE 0xFABC State.reset) = 0b1111#4 ++ (0xABC : Value) := by decide
theorem test_witness_AfterHltTheMachineIsFrozen : ∃ t, exec (.hlt 0) { State.reset with a := 7 } = .next t := ⟨_, rfl⟩
theorem test_witness_HaltedStateIsFinal : ({ State.reset with halt := true, ip := 0x012 } : State).halt = true := by decide
theorem test_witness_RunToHaltAgreesWithStepping : ∃ t, Reaches (before 0 0xF000 State.reset) 3 t ∧ t.halt = true :=
  ⟨_, rfl, by decide⟩
theorem test_witness_ImageLandsVerbatimFromAddressZero :
    (List.replicate 8192 (7 : Byte)).length ≤ 8192 ∧ ([] : List Byte).length ≤ 8192 := ⟨le_of_eq List.length_replicate, by decide⟩
theorem test_witness_a_booted_block : ∃ s, boot (some [0x00, 0x03]) = .ready s ∧ step s = .next { s with
    a := 3, ip := 2, irVal := 3 } := ⟨_, rfl, rfl⟩
theorem test_witness_LoaderErrorsStartNoBlock : 8192 < (List.replicate 8193 (0 : Byte)).length :=
  Nat.lt_of_lt_of_eq (by decide) List.length_replicate.symm
theorem test_witness_PlacedWordIsRunNext :
    0xFFFF < 65536 ∧ 0x002 % 4096 ≠ State.reset.ip.toNat ∧ 0x002 % 4096 ≠ (State.reset.ip.toNat + 1) % 4096 := by decide

end Sys2Proof.Tests
end

section
/-! The reset state (10_state.md R42 to R45). -/

namespace Sys2Proof.Machine

/-- Every register is 0 at engine start (R43). -/
@[simp] theorem readReg_reset (r : Reg) : readReg State.reset r = 0 := by cases r <;> rfl

/-- With no image loaded the window lists no address, so the port reads the unlisted byte everywhere (R42, R45). -/
@[simp] theorem memRead_reset (addr : Nat) : memRead State.reset addr = 0 := cellGet_nil _

/-- The upper half lists no address either. -/
@[simp] theorem cellGet_reset_upper (addr : Nat) : cellGet State.reset.upper addr = 0 := cellGet_nil _

/-- Settles O1: registers, both memories, IP and the halt flag, each by its own lemma or by definition of the reset
state. -/
theorem resetStateIsZeroAndRunning : Obligations.ResetStateIsZeroAndRunning :=
  ⟨readReg_reset, rfl, rfl, fun addr => ⟨memRead_reset addr, cellGet_reset_upper addr⟩⟩

end Sys2Proof.Machine
end

section
/-! The status latch (10_state.md R36). Every operation an instruction is made of commutes with `setLatch`, so every
instruction does. That no instruction writes the latch is the instance where the latch is set to what it already
holds. -/

namespace Sys2Proof.Machine

@[simp] theorem writeReg_setLatch (s : State) (op : Opcode) (val : Value) (r : Reg) (v : Byte) :
    writeReg (setLatch s op val) r v = setLatch (writeReg s r v) op val := by cases r <;> rfl

@[simp] theorem memWrite_setLatch (s : State) (op : Opcode) (val : Value) (addr : Nat) (v : Byte) :
    memWrite (setLatch s op val) addr v = setLatch (memWrite s addr v) op val := rfl

@[simp] theorem setIp_setLatch (s : State) (op : Opcode) (val : Value) (p : Addr) :
    setIp (setLatch s op val) p = setLatch (setIp s p) op val := rfl

@[simp] theorem setHalt_setLatch (s : State) (op : Opcode) (val : Value) :
    setHalt (setLatch s op val) = setLatch (setHalt s) op val := rfl

@[simp] theorem swapWithA_setLatch (s : State) (op : Opcode) (val : Value) (r : Reg) :
    swapWithA (setLatch s op val) r = setLatch (swapWithA s r) op val := by
  simp only [swapWithA, readReg_setLatch, writeReg_setLatch]

/-- Setting the latch to what it holds changes nothing. -/
@[simp] theorem setLatch_self (s : State) : setLatch s s.irOp s.irVal = s := rfl

/-- No instruction reads the latch: with another latch it does the same to everything else and leaves that latch. -/
theorem exec_setLatch {i : Instr} {s t : State} (h : exec i s = .next t) (op : Opcode) (val : Value) :
    exec i (setLatch s op val) = .next (setLatch t op val) := by
  cases i with
  | ldi v | ldm v | add v | sub v | or v | and v | not v | shl v | shr v =>
    cases h
    exact congrArg _ (writeReg_setLatch s op val .A _)
  | str v =>
    cases h
    exact congrArg _ (memWrite_setLatch s op val _ _)
  | jnz v =>
    by_cases hd : s.d = 0
    · rw [exec_jnz_notTaken v hd] at h
      cases h
      exact exec_jnz_notTaken v hd
    · rw [exec_jnz_taken v hd] at h
      cases h
      exact exec_jnz_taken v hd
  | swb v | swc v | swd v | swe v =>
    cases h
    exact congrArg _ (swapWithA_setLatch s op val _)
  | hlt v =>
    cases h
    exact congrArg _ (setHalt_setLatch s op val)

/-- No instruction writes the latch. -/
theorem exec_keeps_latch {i : Instr} {s t : State} (h : exec i s = .next t) : t.irOp = s.irOp ∧ t.irVal = s.irVal := by
  have hself : exec i s = .next (setLatch t s.irOp s.irVal) := exec_setLatch h s.irOp s.irVal
  have ht : t = setLatch t s.irOp s.irVal := Host.Outcome.next.inj (h.symm.trans hself)
  rw [ht]
  exact ⟨setLatch_irOp t _ _, setLatch_irVal t _ _⟩

/-- A running step leaves in the latch the fields of the word it fetched (30_encoding.md R90): the fetch writes them and
the instruction keeps them. -/
theorem step_running_latch {s t : State} (hrun : s.halt = false) (h : step s = .next t) :
    t.irOp = opcodeOf (fetchWord s) ∧ t.irVal = valueOf (fetchWord s) := by
  rw [step_running hrun] at h
  exact exec_keeps_latch h

/-- A halted step keeps the latch (30_encoding.md R93; the spec's decision D8). -/
theorem step_halted_latch {s t : State} (hhalt : s.halt = true) (h : step s = .next t) :
    t.irOp = s.irOp ∧ t.irVal = s.irVal := by
  rw [step_halted hhalt] at h
  cases h
  exact ⟨rfl, rfl⟩

/-- Settles O12: the status outputs are the latch, a running and a halted step each have their lemma, and every
instruction commutes with setting the latch. -/
theorem latchRecordsTheLastDecode : Obligations.LatchRecordsTheLastDecode :=
  ⟨fun _ _ hrun h => step_running_latch hrun h, fun _ _ hhalt h => step_halted_latch hhalt h,
    fun _ _ _ op val h => exec_setLatch h op val⟩

end Sys2Proof.Machine
end

section
/-! The window through its port (20_memory.md R52, R53): the two cases of a read after a write, and what a write leaves
unchanged. -/

namespace Sys2Proof.Machine

/-- A read of the written location, under any address the mask takes to it. -/
theorem memRead_memWrite_same {s : State} {addr x : Nat} {v : Byte} (h : mask12 x = mask12 addr) :
    memRead (memWrite s addr v) x = v := by rw [memRead_memWrite, if_pos h]

/-- A read of any other location. -/
theorem memRead_memWrite_other {s : State} {addr x : Nat} {v : Byte} (h : mask12 x ≠ mask12 addr) :
    memRead (memWrite s addr v) x = memRead s x := by rw [memRead_memWrite, if_neg h]

theorem sameControl_memWrite (s : State) (addr : Nat) (v : Byte) : SameControl s (memWrite s addr v) :=
  ⟨memWrite_ip s addr v, memWrite_halt s addr v, memWrite_irOp s addr v, memWrite_irVal s addr v⟩

/-- Settles O19: two addresses name one location exactly when the port masks them alike, so a read after the write has
its two cases; the rest of the state is the frame of `memWrite`. -/
theorem writeReplacesOneByteOnly : Obligations.WriteReplacesOneByteOnly :=
  fun s addr _ v => ⟨fun hsame => memRead_memWrite_same hsame, fun hother => memRead_memWrite_other hother,
    readReg_memWrite s addr v, sameControl_memWrite s addr v, memWrite_upper s addr v⟩

end Sys2Proof.Machine
end

section
/-! The loaded block (20_memory.md R63, 70_reset_and_hazards.md R235): where each byte of the image is found, and that
the loader writes nothing but the two memories. -/

namespace Sys2Proof.Machine

/-- The window holds the image from byte 0: the bytes taken before the cut at 4096 are the image's own. -/
theorem memRead_loadImage (image : List Byte) {i : Nat} (h : i < 4096) :
    memRead (loadImage image) i = image.getD i 0 := by
  have htake : (image.take 4096).getD i 0 = image.getD i 0 := by
    simp only [List.getD_eq_getElem?_getD, List.getElem?_take_of_lt h]
  have hcell : cellGet (cellsOfBytes 0 (image.take 4096)) (0 + i) = (image.take 4096).getD i 0 :=
    cellGet_cellsOfBytes 0 i _
  rw [Nat.zero_add] at hcell
  calc memRead (loadImage image) i
      = cellGet (cellsOfBytes 0 (image.take 4096)) i := congrArg _ (mask12_of_lt h)
    _ = image.getD i 0 := hcell.trans htake

/-- The upper half holds the image from byte 4096: byte `j` dropped past the cut is the image's byte `4096 + j`. -/
theorem cellGet_loadImage_upper (image : List Byte) {i : Nat} (h : 4096 ≤ i) :
    cellGet (loadImage image).upper i = image.getD i 0 := by
  obtain ⟨j, rfl⟩ := Nat.exists_eq_add_of_le h
  have hdrop : (image.drop 4096).getD j 0 = image.getD (4096 + j) 0 := by
    simp only [List.getD_eq_getElem?_getD, List.getElem?_drop]
  exact (cellGet_cellsOfBytes 4096 j _).trans hdrop

@[simp] theorem readReg_loadImage (image : List Byte) (r : Reg) :
    readReg (loadImage image) r = readReg State.reset r := by cases r <;> rfl

theorem sameControl_loadImage (image : List Byte) : SameControl State.reset (loadImage image) :=
  ⟨rfl, rfl, rfl, rfl⟩

/-- Settles O43: the image boots to the loaded reset state, whose two memories are the image cut at 4096. -/
theorem imageLandsVerbatimFromAddressZero : Obligations.ImageLandsVerbatimFromAddressZero :=
  fun image hlen => ⟨loadImage image, boot_of_le hlen, fun _ hlow => memRead_loadImage image hlow,
    fun _ hhigh _ => cellGet_loadImage_upper image hhigh, readReg_loadImage image, sameControl_loadImage image⟩

end Sys2Proof.Machine
end

section
/-! The decoder's two outputs (30_encoding.md R81): decoding keeps the opcode bits and the value bits of the word, and
words with one opcode decode to one instruction with two value fields. -/

namespace Sys2Proof

/-- The opcode output as a shift. -/
theorem opcodeOf_eq_ushiftRight (w : Word) : opcodeOf w = (w >>> 12).setWidth 4 := rfl

/-- The value output as a mask: the mask keeps the low 12 bits and clears only bits that the value field drops. -/
theorem valueOf_eq_and (w : Word) : valueOf w = (w &&& 0xFFF#16).setWidth 12 := by
  rw [BitVec.setWidth_and, valueOf, ← BitVec.setWidth_eq_extractLsb' (by decide)]
  exact BitVec.and_allOnes.symm

theorem opcodeOf_toNat (w : Word) : (opcodeOf w).toNat = w.toNat / 4096 := by
  have hw := w.isLt
  rw [opcodeOf, BitVec.extractLsb'_toNat, Nat.shiftRight_eq_div_pow]
  omega

theorem valueOf_toNat (w : Word) : (valueOf w).toNat = w.toNat % 4096 := by
  rw [valueOf, BitVec.extractLsb'_toNat, Nat.shiftRight_zero]

theorem opcodeOf_and (w m : Word) : opcodeOf (w &&& m) = opcodeOf w &&& opcodeOf m := BitVec.extractLsb'_and

theorem valueOf_and (w m : Word) : valueOf (w &&& m) = valueOf w &&& valueOf m := BitVec.extractLsb'_and

/-- Bit `i` of the opcode output is bit `12 + i` of the word: the columns that `decode` matches on. -/
theorem opcodeOf_getLsbD (w : Word) {i : Nat} (h : i < 4) : (opcodeOf w).getLsbD i = w.getLsbD (12 + i) := by
  rw [opcodeOf, BitVec.getLsbD_extractLsb', decide_eq_true h, Bool.true_and]

/-- The opcode output is made of the four columns. -/
theorem opcodeOf_eq_cons (w : Word) : opcodeOf w =
    .cons (w.getLsbD 15) (.cons (w.getLsbD 14) (.cons (w.getLsbD 13) (.cons (w.getLsbD 12) .nil))) := by
  refine BitVec.eq_of_getLsbD_eq fun i hi => ?_
  rw [opcodeOf_getLsbD w hi]
  interval_cases i <;> simp [BitVec.getElem_cons]

/-- Every arm of the decoder carries the word's value field. -/
theorem valueField_decode (w : Word) : valueField (decode w) = valueOf w := by
  unfold decode
  split <;> rfl

/-- Every arm of the decoder has the opcode that its four columns spell. -/
theorem opcode_decode (w : Word) : opcode (decode w) = opcodeOf w := by
  rw [opcodeOf_eq_cons]
  unfold decode
  cases w.getLsbD 15 <;> cases w.getLsbD 14 <;> cases w.getLsbD 13 <;> cases w.getLsbD 12 <;> rfl

/-- The decoder picks the instruction by the opcode alone: a word with the opcode of `w` decodes to the instruction of
`w` with its own value field. -/
theorem decode_of_opcodeOf_eq {u w : Word} (h : opcodeOf u = opcodeOf w) :
    decode u = instrOf (mnemonic (decode w)) (valueOf u) := by
  have hcol : ∀ i, i < 4 → u.getLsbD (12 + i) = w.getLsbD (12 + i) := by
    intro i hi
    rw [← opcodeOf_getLsbD u hi, h, opcodeOf_getLsbD w hi]
  have h15 : u.getLsbD 15 = w.getLsbD 15 := hcol 3 (by decide)
  have h14 : u.getLsbD 14 = w.getLsbD 14 := hcol 2 (by decide)
  have h13 : u.getLsbD 13 = w.getLsbD 13 := hcol 1 (by decide)
  have h12 : u.getLsbD 12 = w.getLsbD 12 := hcol 0 (by decide)
  unfold decode
  rw [h15, h14, h13, h12]
  cases w.getLsbD 15 <;> cases w.getLsbD 14 <;> cases w.getLsbD 13 <;> cases w.getLsbD 12 <;> rfl

/-- Settles O16: the decoder's outputs are the two fields of the word, each read as bits and as a number. -/
theorem decodeIsPositional : Obligations.DecodeIsPositional := by
  intro w
  rw [opcode_decode, valueField_decode]
  exact ⟨opcodeOf_eq_ushiftRight w, valueOf_eq_and w, opcodeOf_toNat w, valueOf_toNat w⟩

end Sys2Proof
end

section
/-! Ignored bits (30_encoding.md R82, R85; the spec's decision D12). A word executes as the same word with its ignored
bits cleared, so two words with the same used bits execute identically. -/

namespace Sys2Proof.Machine

/-- Every instruction completes (30_encoding.md R92). -/
theorem exec_completes (i : Instr) (s : State) : ∃ t, exec i s = .next t := by
  cases i with
  | jnz v =>
    by_cases hd : s.d = 0
    · exact ⟨_, exec_jnz_notTaken v hd⟩
    · exact ⟨_, exec_jnz_taken v hd⟩
  | ldi | ldm | str | add | sub | swb | swc | swd | swe | or | and | not | shl | shr | hlt => exact ⟨_, rfl⟩

/-- `usedBits` chooses its mask by the decoded instruction's opcode. -/
theorem toNat_opcode_decode (w : Word) : (opcode (decode w)).toNat = w.toNat / 4096 := by
  rw [opcode_decode, opcodeOf_toNat]

/-- No opcode bit is ever ignored. -/
theorem opcodeOf_usedBits (w : Word) : opcodeOf (usedBits w) = opcodeOf w := by
  unfold usedBits
  split_ifs
  · exact (opcodeOf_and w _).trans BitVec.and_allOnes
  · rfl
  · exact (opcodeOf_and w _).trans BitVec.and_allOnes

/-- LDI uses the low 8 bits of its value field. -/
theorem usedBits_ldi {w : Word} {v : Value} (h : decode w = .ldi v) : usedBits w = w &&& 0xF0FF#16 := by
  have hop := toNat_opcode_decode w
  rw [h] at hop
  exact if_pos hop.symm

/-- LDM, STR and JNZ, the opcodes 1, 2 and 5, use their whole value field. -/
theorem usedBits_wholeValue {w : Word}
    (h : opcode (decode w) = 1 ∨ opcode (decode w) = 2 ∨ opcode (decode w) = 5) : usedBits w = w := by
  have hop := toNat_opcode_decode w
  have hsel : w.toNat / 4096 = 1 ∨ w.toNat / 4096 = 2 ∨ w.toNat / 4096 = 5 := by
    rw [← hop]
    exact h.imp (congrArg _) (Or.imp (congrArg _) (congrArg _))
  rw [usedBits, if_neg (by omega), if_pos hsel]

/-- The immediate does not see what LDI's mask clears. -/
theorem imm8_and (v : Value) : imm8 (v &&& 0x0FF#12) = imm8 v :=
  BitVec.extractLsb'_and.trans BitVec.and_allOnes

/-- A word executes as its used bits alone: they decode to the same instruction, and what an arm reads of the value
field is used. -/
theorem exec_decode_usedBits (w : Word) (s : State) : exec (decode (usedBits w)) s = exec (decode w) s := by
  have hval : valueOf w = valueField (decode w) := (valueField_decode w).symm
  rw [decode_of_opcodeOf_eq (opcodeOf_usedBits w)]
  cases hi : decode w with
  | ldi v =>
    rw [hi] at hval
    have himm : imm8 (valueOf (usedBits w)) = imm8 v := by
      rw [usedBits_ldi hi, valueOf_and, hval]
      exact imm8_and v
    exact congrArg (fun imm => Host.Outcome.next (writeReg s .A imm)) himm
  | ldm v | str v | jnz v =>
    have hused : usedBits w = w := usedBits_wholeValue (by simp [hi, opcode])
    rw [hi] at hval
    rw [hused, hval]
    rfl
  | add | sub | swb | swc | swd | swe | or | and | not | shl | shr | hlt => rfl

/-- Words that agree on their used bits execute identically (R85). -/
theorem exec_decode_eq_of_usedBits_eq {w w' : Word} (h : usedBits w = usedBits w') (s : State) :
    exec (decode w) s = exec (decode w') s :=
  calc exec (decode w) s
      = exec (decode (usedBits w)) s := (exec_decode_usedBits w s).symm
    _ = exec (decode (usedBits w')) s := by rw [h]
    _ = exec (decode w') s := exec_decode_usedBits w' s

/-- Settles O18: every instruction completes, a word executes as its used bits, and a running step latches the fields of
the word it fetched. -/
theorem ignoredBitsHaveNoEffect : Obligations.IgnoredBitsHaveNoEffect :=
  ⟨fun w s => exec_completes (decode w) s, fun _ _ s h => exec_decode_eq_of_usedBits_eq h s,
    fun _ _ hrun hstep => (step_running_latch hrun hstep).right⟩

end Sys2Proof.Machine
end

section
/-! A word written as an opcode and a value field (30_encoding.md R80, R84): it decodes to the instruction of that opcode
with that value, whatever the value is. -/

namespace Sys2Proof

/-- The opcode alone picks the instruction, so the word with value 0 names it and the value field is carried along. For
an opcode written out, the right side computes to the instruction itself. -/
theorem decode_append (op : Opcode) (v : Value) :
    decode (op ++ v) = instrOf (mnemonic (decode (op ++ 0#12))) v := by
  obtain ⟨hop, hval⟩ := Laws.EncodeFields.fields_of_append op v
  obtain ⟨hop_zero, -⟩ := Laws.EncodeFields.fields_of_append op 0#12
  rw [decode_of_opcodeOf_eq (hop.trans hop_zero.symm), hval]

theorem decode_ldi (v : Value) : decode (0b0000#4 ++ v) = .ldi v := decode_append _ v
theorem decode_ldm (v : Value) : decode (0b0001#4 ++ v) = .ldm v := decode_append _ v
theorem decode_str (v : Value) : decode (0b0010#4 ++ v) = .str v := decode_append _ v

end Sys2Proof
end

section
/-! Loads and stores (40_load_store.md): the frame of a register write, a running step on an LDM or an STR word, and the
byte the fetch port reads at IP when the word at IP is known. -/

namespace Sys2Proof.Machine

/-- Every byte the port reads stays, and the upper half with it. -/
theorem sameMemory_writeReg (s : State) (r : Reg) (v : Byte) : SameMemory s (writeReg s r v) :=
  ⟨memRead_writeReg s r v, writeReg_upper s r v⟩

theorem sameControl_writeReg (s : State) (r : Reg) (v : Byte) : SameControl s (writeReg s r v) :=
  ⟨writeReg_ip s r v, writeReg_halt s r v, writeReg_irOp s r v, writeReg_irVal s r v⟩

theorem readReg_writeReg_same (s : State) (r : Reg) (v : Byte) : readReg (writeReg s r v) r = v := by
  rw [readReg_writeReg, if_pos rfl]

theorem readReg_writeReg_other {s : State} {r q : Reg} {v : Byte} (h : q ≠ r) :
    readReg (writeReg s r v) q = readReg s q := by
  rw [readReg_writeReg, if_neg h]

/-- The frame of every instruction that does no more than write one register. -/
theorem onlyRegsChange_writeReg (s : State) (r : Reg) (v : Byte) : OnlyRegsChange [r] s (writeReg s r v) :=
  ⟨fun _ hq => readReg_writeReg_other (List.ne_of_not_mem_cons hq), sameControl_writeReg s r v,
    sameMemory_writeReg s r v⟩

/-- A running step on an LDM word. The fetch leaves memory, so the load reads what stood there before the step. -/
theorem step_ldm {s : State} {v : Value} (hrun : s.halt = false) (hword : fetchWord s = 0b0001#4 ++ v) :
    step s = .next (writeReg (afterFetch s) .A (memRead s v.toNat)) := by
  rw [step_running hrun, hword, decode_ldm, exec_ldm, memRead_afterFetch]

/-- A running step on an STR word. The word was fetched before the store (20_memory.md R68), so no address of the store
is an exception. -/
theorem step_str {s : State} {v : Value} (hrun : s.halt = false) (hword : fetchWord s = 0b0010#4 ++ v) :
    step s = .next (memWrite (afterFetch s) v.toNat s.a) := by
  rw [step_running hrun, hword, decode_str, exec_str, afterFetch_a]

/-- The byte at IP is the high byte of the fetched word: the opcode and the value's top four bits. -/
theorem memRead_ip_toNat {s : State} {op : Opcode} {v : Value} (hword : fetchWord s = op ++ v) :
    (memRead s s.ip.toNat).toNat = op.toNat * 16 + v.toNat / 256 := by
  have hbytes := fetchWord_toNat s
  rw [hword, Laws.EncodeFields.toNat_append] at hbytes
  have hlow := (memRead s (s.ip.toNat + 1)).isLt
  omega

/-- Settles O24: the low byte of the value field, written to A. -/
theorem ldiLoadsTheLowByte : Obligations.LdiLoadsTheLowByte := by
  intro v s
  refine ⟨decode_ldi v, _, exec_ldi v s, ?_, onlyRegsChange_writeReg s .A _⟩
  rw [readReg_writeReg_same, imm8_toNat]

/-- Settles O25: the addressed byte, written to A; at its own address an LDM loads the high byte of its own word. -/
theorem ldmLoadsTheAddressedByte : Obligations.LdmLoadsTheAddressedByte := by
  refine ⟨fun v s => ⟨decode_ldm v, _, exec_ldm v s, ?_, onlyRegsChange_writeReg s .A _⟩, fun s hrun hword => ?_⟩
  · exact readReg_writeReg_same s .A _
  · refine ⟨_, step_ldm hrun hword, ?_⟩
    rw [writeReg_A_a]
    exact memRead_ip_toNat hword

/-- Settles O26: both clauses are the rules of the port for one write; in the second the write is to the state after the
fetch, whose memory and A are the old ones and whose latch holds the fields of the fetched word. -/
theorem strStoresAAtTheAddressedByte : Obligations.StrStoresAAtTheAddressedByte := by
  refine ⟨fun v s => ?_, fun s v hrun hword => ?_⟩
  · exact ⟨decode_str v, rfl, _, exec_str v s, memRead_memWrite_same rfl, fun _ hother => memRead_memWrite_other hother,
      readReg_memWrite s _ _, sameControl_memWrite s _ _, memWrite_upper s _ _⟩
  · have hstep := step_str hrun hword
    obtain ⟨hop, hval⟩ := step_running_latch hrun hstep
    obtain ⟨hop_word, hval_word⟩ := Laws.EncodeFields.fields_of_append 0b0010#4 v
    rw [hword] at hop hval
    exact ⟨_, hstep, memRead_memWrite_same rfl, hop.trans hop_word, hval.trans hval_word,
      fun _ hother => memRead_memWrite_other hother, memWrite_a _ _ _⟩

end Sys2Proof.Machine
end

section
/-! Arithmetic (41_arithmetic.md): both readings of the sum and of the difference (R122). -/

namespace Sys2Proof

theorem decode_add (v : Value) : decode (0b0011#4 ++ v) = .add v := decode_append _ v
theorem decode_sub (v : Value) : decode (0b0100#4 ++ v) = .sub v := decode_append _ v

end Sys2Proof

namespace Sys2Proof.Machine

/-- The sum read as unsigned, over the integers. -/
theorem aluAdd_toNat_int (b c : Byte) : ((aluAdd b c).toNat : Int) = ((b.toNat : Int) + c.toNat) % 256 := by
  rw [aluAdd_toNat, Int.natCast_emod, Int.natCast_add]
  rfl

/-- The difference read as unsigned, over the integers: the 256 that keeps the natural-number difference from going
below 0 vanishes modulo 256. -/
theorem aluSub_toNat_int (b c : Byte) : ((aluSub b c).toNat : Int) = ((b.toNat : Int) - c.toNat) % 256 := by
  have hc := c.isLt
  rw [aluSub_toNat]
  omega

/-- The sum read as two's complement: the same bits, wrapped to -128..127. -/
theorem aluAdd_toInt (b c : Byte) : (aluAdd b c).toInt = (b.toInt + c.toInt).bmod 256 := BitVec.toInt_add b c

/-- The difference read as two's complement. -/
theorem aluSub_toInt (b c : Byte) : (aluSub b c).toInt = (b.toInt - c.toInt).bmod 256 := BitVec.toInt_sub

/-- Settles O27: the sum of B and C, written to A. -/
theorem addWritesTheSum : Obligations.AddWritesTheSum := by
  intro v s
  refine ⟨decode_add v, _, exec_add v s, ?_, onlyRegsChange_writeReg s .A _⟩
  rw [readReg_writeReg_same, readReg_B, readReg_C, aluAdd_toNat]

/-- Settles O28: the difference of B and C, written to A. -/
theorem subWritesTheDifference : Obligations.SubWritesTheDifference := by
  intro v s
  refine ⟨decode_sub v, _, exec_sub v s, ?_, onlyRegsChange_writeReg s .A _⟩
  rw [readReg_writeReg_same, readReg_B, readReg_C, aluSub_toNat]

/-- Settles O29: A holds the ALU's sum or difference of B and C, and each has its two readings. -/
theorem arithmeticIsModularInBothReadings : Obligations.ArithmeticIsModularInBothReadings :=
  fun v s => ⟨_, _, exec_add v s, exec_sub v s, aluAdd_toNat_int s.b s.c, aluSub_toNat_int s.b s.c,
    aluAdd_toInt s.b s.c, aluSub_toInt s.b s.c⟩

end Sys2Proof.Machine
end

section
/-! Control transfer (42_control.md): JNZ moves IP or does nothing (R134). -/

namespace Sys2Proof

theorem decode_jnz (v : Value) : decode (0b0101#4 ++ v) = .jnz v := decode_append _ v

end Sys2Proof

namespace Sys2Proof.Machine

theorem sameControl_setIp (s : State) (p : Addr) : SameControl { s with ip := p } (setIp s p) :=
  ⟨setIp_ip s p, setIp_halt s p, setIp_irOp s p, setIp_irVal s p⟩

theorem sameMemory_setIp (s : State) (p : Addr) : SameMemory s (setIp s p) :=
  ⟨memRead_setIp s p, setIp_upper s p⟩

/-- The frame of a jump: the state with IP at the target, and no register, control field or byte besides. -/
theorem onlyRegsChange_setIp (s : State) (p : Addr) : OnlyRegsChange [] { s with ip := p } (setIp s p) :=
  ⟨fun r _ => readReg_setIp s p r, sameControl_setIp s p, sameMemory_setIp s p⟩

/-- Settles O30: the two cases of D, the jump not taken and the jump taken. -/
theorem jnzJumpsWhenDIsNotZero : Obligations.JnzJumpsWhenDIsNotZero := by
  refine fun v s => ⟨decode_jnz v, fun hzero => ?_, fun hnonzero => ?_⟩
  · exact exec_jnz_notTaken v hzero
  · exact ⟨_, exec_jnz_taken v hnonzero, jumpTarget_toNat s.a v, onlyRegsChange_setIp s _⟩

end Sys2Proof.Machine
end

section
/-! Swaps (43_swap.md). `swapWithA` exchanges two registers and is its own inverse; no instruction but a register's own
swap writes it, A apart; and E, which is no source of any other instruction (10_state.md R25), can be set before or
after such an instruction alike. -/

namespace Sys2Proof

theorem decode_swb (v : Value) : decode (0b0110#4 ++ v) = .swb v := decode_append _ v
theorem decode_swc (v : Value) : decode (0b0111#4 ++ v) = .swc v := decode_append _ v
theorem decode_swd (v : Value) : decode (0b1000#4 ++ v) = .swd v := decode_append _ v
theorem decode_swe (v : Value) : decode (0b1001#4 ++ v) = .swe v := decode_append _ v

/-- The instruction that exchanges A with a register; there is none for A itself. -/
def swapInstr (v : Value) : Machine.Reg → Option Instr
  | .A => none
  | .B => some (.swb v)
  | .C => some (.swc v)
  | .D => some (.swd v)
  | .E => some (.swe v)

end Sys2Proof

namespace Sys2Proof.Machine

/-! ### The exchange -/

theorem readReg_swapWithA_A (s : State) (r : Reg) : readReg (swapWithA s r) .A = readReg s r := by
  cases r <;> rfl

theorem readReg_swapWithA_same (s : State) (r : Reg) : readReg (swapWithA s r) r = readReg s .A := by
  rw [readReg_swapWithA, if_pos rfl]

theorem readReg_swapWithA_other {s : State} {r q : Reg} (hA : q ≠ .A) (hr : q ≠ r) :
    readReg (swapWithA s r) q = readReg s q := by
  rw [readReg_swapWithA, if_neg hr, if_neg hA]

/-- The frame of a swap. -/
theorem onlyRegsChange_swapWithA (s : State) (r : Reg) : OnlyRegsChange [.A, r] s (swapWithA s r) := by
  obtain ⟨hip, hhalt, hop, hval, hmem, hupper⟩ := swapWithA_control s r
  refine ⟨fun q hq => ?_, ⟨hip, hhalt, hop, hval⟩, fun addr => ?_, hupper⟩
  · obtain ⟨hA, hr⟩ := List.ne_and_not_mem_of_not_mem_cons hq
    exact readReg_swapWithA_other hA (List.ne_of_not_mem_cons hr)
  · rw [memRead, hmem, memRead]

/-- A swap is an involution. -/
theorem swapWithA_swapWithA (s : State) (r : Reg) : swapWithA (swapWithA s r) r = s := by
  cases r <;> rfl

/-! ### Who writes a register other than A -/

/-- The arm of the register's swap is `swapWithA`. -/
theorem exec_swapInstr {v : Value} {r : Reg} {i : Instr} (h : swapInstr v r = some i) (s : State) :
    exec i s = .next (swapWithA s r) := by
  cases r <;> cases h <;> rfl

/-- Every instruction leaves every register but A and the one it swaps: all results go to A (10_state.md R22). -/
theorem exec_keeps_register {i : Instr} {s t : State} {r : Reg} (h : exec i s = .next t) (hA : r ≠ .A)
    (hswap : ∀ v, swapInstr v r ≠ some i) : readReg t r = readReg s r := by
  cases i with
  | ldi | ldm | add | sub | or | and | not | shl | shr =>
    cases h
    exact readReg_writeReg_other hA
  | str =>
    cases h
    exact readReg_memWrite s _ _ r
  | jnz =>
    rw [exec_jnz] at h
    split at h <;> cases h
    · rfl
    · exact readReg_setIp s _ r
  | swb v | swc v | swd v | swe v =>
    cases h
    refine readReg_swapWithA_other hA ?_
    rintro rfl
    exact hswap v rfl
  | hlt =>
    cases h
    exact readReg_setHalt s r

/-- A register other than A is written by its own swap only. -/
theorem swap_of_register_changes {mk : Value → Instr} {r : Reg} (hswap : ∀ v, swapInstr v r = some (mk v)) (hA : r ≠ .A)
    {i : Instr} {s t : State} (h : exec i s = .next t) (hne : readReg t r ≠ readReg s r) : ∃ v, i = mk v := by
  by_contra hnone
  refine hne (exec_keeps_register h hA fun v hi => hnone ⟨v, ?_⟩)
  exact Option.some.inj (hi.symm.trans (hswap v))

/-! ### Who reads E -/

theorem writeReg_writeReg_E {r : Reg} (h : r ≠ .E) (s : State) (v x : Byte) :
    writeReg (writeReg s .E x) r v = writeReg (writeReg s r v) .E x := by
  cases r with
  | A | B | C | D => rfl
  | E => exact absurd rfl h

theorem swapWithA_writeReg_E {r : Reg} (h : r ≠ .E) (s : State) (x : Byte) :
    swapWithA (writeReg s .E x) r = writeReg (swapWithA s r) .E x := by
  have hA : Reg.A ≠ .E := by decide
  rw [swapWithA, readReg_writeReg_other h, readReg_writeReg_other hA, writeReg_writeReg_E hA, writeReg_writeReg_E h,
    swapWithA]

/-- No instruction but SWE reads E: with another value in E it does the same to everything else and leaves that
value. -/
theorem exec_writeReg_E {i : Instr} {s t : State} (h : exec i s = .next t) (hswap : ∀ v, i ≠ .swe v) (x : Byte) :
    exec i (writeReg s .E x) = .next (writeReg t .E x) := by
  cases i with
  | ldi | ldm | add | sub | or | and | not | shl | shr =>
    cases h
    exact congrArg Host.Outcome.next (writeReg_writeReg_E (by decide) s _ x)
  | str =>
    cases h
    rfl
  | jnz v =>
    by_cases hd : s.d = 0
    · rw [exec_jnz_notTaken v hd] at h
      cases h
      exact exec_jnz_notTaken v hd
    · rw [exec_jnz_taken v hd] at h
      cases h
      exact exec_jnz_taken v hd
  | swb | swc | swd =>
    cases h
    exact congrArg Host.Outcome.next (swapWithA_writeReg_E (by decide) s x)
  | swe v => exact absurd rfl (hswap v)
  | hlt =>
    cases h
    rfl

/-! ### The four swaps -/

/-- The first clause of every swap statement, for an opcode that decodes to the swap of `r`: the encoding, the exchange,
its frame, and that a second swap takes it back. -/
theorem swap_exchanges {op : Opcode} {mk : Value → Instr} {r : Reg} (hdecode : ∀ v, decode (op ++ v) = mk v)
    (hswap : ∀ v, swapInstr v r = some (mk v)) (v : Value) (s : State) :
    decode (op ++ v) = mk v ∧ ∃ t, exec (mk v) s = .next t ∧ readReg t .A = readReg s r ∧ readReg t r = readReg s .A ∧
      OnlyRegsChange [.A, r] s t ∧ ∀ v', exec (mk v') t = .next s := by
  refine ⟨hdecode v, _, exec_swapInstr (hswap v) s, readReg_swapWithA_A s r, readReg_swapWithA_same s r,
    onlyRegsChange_swapWithA s r, fun v' => ?_⟩
  rw [exec_swapInstr (hswap v'), swapWithA_swapWithA]

/-- Settles O32: the swap of B, and B as a register that only its swap writes. -/
theorem swbExchangesAAndB : Obligations.SwbExchangesAAndB :=
  ⟨swap_exchanges decode_swb fun _ => rfl, fun _ _ _ h hne => swap_of_register_changes (fun _ => rfl) (by decide) h hne⟩

/-- Settles O33: the swap of C, and C as a register that only its swap writes. -/
theorem swcExchangesAAndC : Obligations.SwcExchangesAAndC :=
  ⟨swap_exchanges decode_swc fun _ => rfl, fun _ _ _ h hne => swap_of_register_changes (fun _ => rfl) (by decide) h hne⟩

/-- Settles O34: the swap of D, and D as a register that only its swap writes. -/
theorem swdExchangesAAndD : Obligations.SwdExchangesAAndD :=
  ⟨swap_exchanges decode_swd fun _ => rfl, fun _ _ _ h hne => swap_of_register_changes (fun _ => rfl) (by decide) h hne⟩

/-- Settles O35: the swap of E; any other instruction leaves E, as every register that it does not swap, and commutes
with setting E. -/
theorem sweExchangesAAndE : Obligations.SweExchangesAAndE := by
  refine ⟨swap_exchanges decode_swe fun _ => rfl, fun i s t h hother => ⟨?_, exec_writeReg_E h hother⟩⟩
  exact exec_keeps_register h (by decide) fun v hi => hother v (Option.some.inj hi).symm

end Sys2Proof.Machine
end

section
/-! Logic and the right shift (44_logic_shift.md): the results bit by bit, and the right shift as the bit vectors' own,
which fills with zeros (R154). -/

namespace Sys2Proof

theorem decode_or (v : Value) : decode (0b1010#4 ++ v) = .or v := decode_append _ v
theorem decode_and (v : Value) : decode (0b1011#4 ++ v) = .and v := decode_append _ v
theorem decode_not (v : Value) : decode (0b1100#4 ++ v) = .not v := decode_append _ v
theorem decode_shr (v : Value) : decode (0b1110#4 ++ v) = .shr v := decode_append _ v

end Sys2Proof

namespace Sys2Proof.Machine

theorem aluOr_getLsbD (b c : Byte) (k : Nat) : (aluOr b c).getLsbD k = (b.getLsbD k || c.getLsbD k) :=
  BitVec.getLsbD_or

theorem aluAnd_getLsbD (b c : Byte) (k : Nat) : (aluAnd b c).getLsbD k = (b.getLsbD k && c.getLsbD k) :=
  BitVec.getLsbD_and

/-- From bit 8 on a byte reads false, and so does its complement. -/
theorem aluNot_getLsbD (b : Byte) {k : Nat} (h : k < 8) : (aluNot b).getLsbD k = !b.getLsbD k := by
  rw [aluNot, BitVec.getLsbD_not, decide_eq_true h, Bool.true_and]

/-- The shift of the number loses nothing at the top, so cutting it to a byte is the shift of the byte. -/
theorem aluShr_eq_ushiftRight (b c : Byte) : aluShr b c = b >>> c.toNat := by
  apply BitVec.eq_of_toNat_eq
  rw [aluShr_toNat, BitVec.toNat_ushiftRight, Nat.shiftRight_eq_div_pow]

/-- A count of 8 or more shifts every bit out. -/
theorem aluShr_eq_zero (b : Byte) {c : Byte} (h : 8 ≤ c.toNat) : aluShr b c = 0 := by
  rw [aluShr_eq_ushiftRight]
  exact BitVec.ushiftRight_eq_zero h

/-- Above bit 7 of B there is nothing to bring down: those bits are the zeros shifted in. -/
theorem aluShr_getLsbD (b c : Byte) (k : Nat) : (aluShr b c).getLsbD k = b.getLsbD (k + c.toNat) := by
  rw [aluShr_eq_ushiftRight, BitVec.getLsbD_ushiftRight, Nat.add_comm]

/-- Settles O36: each of the three writes the ALU's result to A, and each result is known bit by bit. -/
theorem logicIsBitwise : Obligations.LogicIsBitwise := by
  refine fun v s => ⟨⟨decode_or v, _, exec_or v s, fun k _ => ?_, onlyRegsChange_writeReg s .A _⟩,
    ⟨decode_and v, _, exec_and v s, fun k _ => ?_, onlyRegsChange_writeReg s .A _⟩,
    ⟨decode_not v, _, exec_not v s, fun k hk => ?_, ?_, onlyRegsChange_writeReg s .A _⟩⟩
  · exact aluOr_getLsbD s.b s.c k
  · exact aluAnd_getLsbD s.b s.c k
  · exact aluNot_getLsbD s.b hk
  · exact aluNot_toNat s.b

/-- Settles O38: A holds the ALU's right shift of B by C, known as a number, for the counts of 8 or more, and bit by
bit. -/
theorem shrShiftsWithZeroFill : Obligations.ShrShiftsWithZeroFill := by
  refine fun v s => ⟨decode_shr v, _, exec_shr v s, ?_, fun hcount => ?_, fun k _ => ?_, onlyRegsChange_writeReg s .A _⟩
  · exact aluShr_toNat s.b s.c
  · exact aluShr_eq_zero s.b hcount
  · exact aluShr_getLsbD s.b s.c k

end Sys2Proof.Machine
end

section
/-! Runs from a halted state (30_encoding.md R93): HLT leaves the flag set, and a halted step answers the state itself, so
no number of steps leaves it. -/

namespace Sys2Proof.Machine

/-- HLT sets the flag whatever it was (R170). -/
theorem halt_of_exec_hlt {v : Value} {s t : State} (h : exec (.hlt v) s = .next t) : t.halt = true := by
  rw [exec_hlt] at h
  cases h
  exact setHalt_halt s

/-- A halted state is a fixed point of the step, hence of every run. -/
theorem reaches_self_of_halted {s : State} (h : s.halt = true) (k : Nat) : Reaches s k s := by
  induction k with
  | zero => exact reaches_zero.mpr rfl
  | succ k ih => exact (reaches_succ (step_halted h)).mpr ih

/-- Settles O40: the state after HLT is halted, so every run from it ends in that very state. -/
theorem afterHltTheMachineIsFrozen : Obligations.AfterHltTheMachineIsFrozen :=
  fun _ _ t h k => ⟨t, reaches_self_of_halted (halt_of_exec_hlt h) k, rfl, rfl, fun _ => rfl⟩

end Sys2Proof.Machine
end

section
/-! The two loader errors (60_exceptions.md R211). -/

namespace Sys2Proof.Machine

/-- Without the image's bytes the loader has nothing to write, whatever its limit. -/
theorem boot_none : boot none = .unreadableImage := rfl

/-- Settles O44: an image past the limit is refused, and the answer to no image is an error, not a ready block. -/
theorem loaderErrorsStartNoBlock : Obligations.LoaderErrorsStartNoBlock := by
  refine ⟨fun _ hlong => boot_of_gt hlong, boot_none, fun s hready => ?_⟩
  rw [boot_none] at hready
  cases hready

end Sys2Proof.Machine
end

section
/-! The first step of a booted block (70_reset_and_hazards.md R231): it starts at IP 0, not halted, and fetches the
image's first two bytes. -/

namespace Sys2Proof.Machine

/-- Loading leaves IP as reset does: the entry point is 0. -/
@[simp] theorem loadImage_ip (image : List Byte) : (loadImage image).ip = 0 := rfl

@[simp] theorem loadImage_halt (image : List Byte) : (loadImage image).halt = false := rfl

/-- At IP 0 the fetch port reads the bytes at 0 and 1, which the window holds as the image gives them. -/
theorem fetchWord_loadImage (image : List Byte) :
    fetchWord (loadImage image) = wordOfBytes (image.getD 0 0) (image.getD 1 0) := by
  have hip : (loadImage image).ip.toNat = 0 := congrArg BitVec.toNat (loadImage_ip image)
  have hhigh := memRead_loadImage image (i := 0) (by decide)
  have hlow := memRead_loadImage image (i := 1) (by decide)
  rw [fetchWord, hip, Nat.zero_add, hhigh, hlow]

/-- Settles O45: a booted block is the loaded reset state, which runs, so its first step is exec of the word it
fetches. -/
theorem firstStepRunsTheWordAtZero : Obligations.FirstStepRunsTheWordAtZero := by
  intro image s hboot
  obtain ⟨-, rfl⟩ := boot_ready hboot
  have hfetch := fetchWord_loadImage image
  refine ⟨loadImage_ip image, hfetch, ?_⟩
  rw [step_running (loadImage_halt image), hfetch]

end Sys2Proof.Machine
end

section
/-! What an instruction can do to the state, said once. -/

namespace Sys2Proof.Machine

/-- The instruction writes registers and nothing else: the write column of the opcode map names memory, IP or the halt
flag for the other three only (10_state.md R26). -/
def writesRegsOnly : Instr → Bool
  | .str _ | .jnz _ | .hlt _ => false
  | _ => true

/-- Everything an instruction can do to the state after the fetch. -/
inductive ExecEffect : Instr → State → State → Prop where
  /-- A takes a result. -/
  | writesA {i : Instr} (hi : writesRegsOnly i = true) (s : State) (v : Byte) : ExecEffect i s (writeReg s .A v)
  /-- A and another register are exchanged. -/
  | swaps {i : Instr} (hi : writesRegsOnly i = true) (s : State) (r : Reg) : ExecEffect i s (swapWithA s r)
  /-- STR stores A. -/
  | stores (v : Value) (s : State) : ExecEffect (.str v) s (memWrite s v.toNat s.a)
  /-- A JNZ with D = 0 does nothing. -/
  | staysInLine (v : Value) {s : State} (hd : s.d = 0) : ExecEffect (.jnz v) s s
  /-- A JNZ with D ≠ 0 jumps. -/
  | jumps (v : Value) {s : State} (hd : s.d ≠ 0) : ExecEffect (.jnz v) s (setIp s (jumpTarget s.a v))
  /-- HLT halts. -/
  | halts (v : Value) (s : State) : ExecEffect (.hlt v) s (setHalt s)

/-- `ExecEffect` leaves nothing out that `exec` does. -/
theorem execEffect_of_exec {i : Instr} {s t : State} (h : exec i s = .next t) : ExecEffect i s t := by
  cases i with
  | ldi | ldm | add | sub | or | and | not | shl | shr =>
    cases h
    exact .writesA rfl s _
  | swb | swc | swd | swe =>
    cases h
    exact .swaps rfl s _
  | str v =>
    cases h
    exact .stores v s
  | jnz v =>
    by_cases hd : s.d = 0
    · rw [exec_jnz_notTaken v hd] at h
      cases h
      exact .staysInLine v hd
    · rw [exec_jnz_taken v hd] at h
      cases h
      exact .jumps v hd
  | hlt v =>
    cases h
    exact .halts v s

@[simp] theorem swapWithA_ip (s : State) (r : Reg) : (swapWithA s r).ip = s.ip := by cases r <;> rfl
@[simp] theorem swapWithA_halt (s : State) (r : Reg) : (swapWithA s r).halt = s.halt := by cases r <;> rfl
@[simp] theorem swapWithA_mem (s : State) (r : Reg) : (swapWithA s r).mem = s.mem := by cases r <;> rfl
@[simp] theorem swapWithA_upper (s : State) (r : Reg) : (swapWithA s r).upper = s.upper := by cases r <;> rfl

/-- No instruction writes the upper half. -/
theorem exec_keeps_upper {i : Instr} {s t : State} (h : exec i s = .next t) : t.upper = s.upper := by
  cases execEffect_of_exec h with
  | writesA | stores | staysInLine | jumps | halts => rfl
  | swaps _ _ r => exact swapWithA_upper s r

/-- Every instruction but a taken JNZ leaves IP after the word (10_state.md R30). -/
theorem exec_keeps_ip {i : Instr} {s t : State} (h : exec i s = .next t) (hjnz : (∃ v, i = .jnz v) → s.d = 0) :
    t.ip = s.ip := by
  cases execEffect_of_exec h with
  | writesA | stores | staysInLine | halts => rfl
  | swaps _ _ r => exact swapWithA_ip s r
  | jumps v hd => exact absurd (hjnz ⟨v, rfl⟩) hd

/-- Every instruction but HLT leaves the halt flag. -/
theorem exec_keeps_halt {i : Instr} {s t : State} (h : exec i s = .next t) (hhlt : ∀ v, i ≠ .hlt v) :
    t.halt = s.halt := by
  cases execEffect_of_exec h with
  | writesA | stores | staysInLine | jumps => rfl
  | swaps _ _ r => exact swapWithA_halt s r
  | halts v => exact absurd rfl (hhlt v)

/-- Every instruction but STR leaves the window. -/
theorem exec_keeps_mem {i : Instr} {s t : State} (h : exec i s = .next t) (hstr : ∀ v, i ≠ .str v) :
    t.mem = s.mem := by
  cases execEffect_of_exec h with
  | writesA | staysInLine | jumps | halts => rfl
  | swaps _ _ r => exact swapWithA_mem s r
  | stores v => exact absurd rfl (hstr v)

/-- STR, JNZ and HLT write no register. -/
theorem exec_keeps_registers {i : Instr} {s t : State} (h : exec i s = .next t) (hi : writesRegsOnly i = false)
    (r : Reg) : readReg t r = readReg s r := by
  cases execEffect_of_exec h with
  | writesA hregs | swaps hregs => exact absurd hregs (Bool.eq_false_iff.mp hi)
  | stores => exact readReg_memWrite s _ _ r
  | staysInLine => rfl
  | jumps => exact readReg_setIp s _ r
  | halts => exact readReg_setHalt s r

/-- Settles O11: each clause is the frame lemma for what it speaks of, read backwards. -/
theorem onlyTheNamedInstructionsWrite : Obligations.OnlyTheNamedInstructionsWrite := by
  intro i s t h
  obtain ⟨hop, hval⟩ := exec_keeps_latch h
  refine ⟨fun hip => ?_, fun hhalt => ?_, fun hmem => ?_, fun hthree r => ?_, hop, hval, exec_keeps_upper h⟩
  · by_contra hnone
    exact hip (exec_keeps_ip h fun hjnz => absurd hjnz hnone)
  · by_contra hnone
    exact hhalt (exec_keeps_halt h fun v hi => hnone ⟨v, hi⟩)
  · obtain ⟨addr, hne⟩ := hmem
    by_contra hnone
    exact hne (congrArg (cellGet · (mask12 addr)) (exec_keeps_mem h fun v hi => hnone ⟨v, hi⟩))
  · refine exec_keeps_registers h ?_ r
    obtain ⟨v, rfl | rfl | rfl⟩ := hthree <;> rfl

/-- Everything a step can do: nothing when halted, else the fetch and an instruction (30_encoding.md R90, R93). -/
theorem step_cases {s t : State} (h : step s = .next t) :
    (s.halt = true ∧ t = s) ∨ (s.halt = false ∧ exec (decode (fetchWord s)) (afterFetch s) = .next t) := by
  by_cases hhalt : s.halt = true
  · rw [step_halted hhalt] at h
    cases h
    exact .inl ⟨hhalt, rfl⟩
  · have hrun : s.halt = false := Bool.eq_false_of_not_eq_true hhalt
    exact .inr ⟨hrun, (step_running hrun).symm.trans h⟩

/-- Settles O10: a halted step stays; a running one moves IP past the word, from where only a taken JNZ moves it
again. -/
theorem ipAfterAStep : Obligations.IpAfterAStep := by
  refine fun s t hstep => ⟨fun hhalt => ?_, fun hrun v hword hd => ?_, fun hrun hjnz => ?_⟩
  · rw [step_halted hhalt] at hstep
    cases hstep
    rfl
  · rw [step_running hrun, hword, exec_jnz_taken (s := afterFetch s) v hd] at hstep
    cases hstep
    exact jumpTarget_toNat s.a v
  · rw [step_running hrun] at hstep
    rw [exec_keeps_ip hstep hjnz, afterFetch_ip, nextIp_toNat]

end Sys2Proof.Machine
end

section
/-! The canonical form of the two memories (the model's choice, entry 4): every instruction keeps it, and within it a
memory is determined by what its addresses read as. -/

namespace Sys2Proof.Machine

/-- Every instruction keeps the canonical form: only STR writes memory, through the port. -/
theorem exec_keeps_inv {i : Instr} {s t : State} (h : exec i s = .next t) (hs : s.Inv) : t.Inv := by
  obtain ⟨hmem, hupper⟩ := hs
  refine ⟨?_, by rwa [exec_keeps_upper h]⟩
  by_cases hstr : ∃ v, i = .str v
  · obtain ⟨v, rfl⟩ := hstr
    cases h
    exact memWrite_wf hmem v.toNat s.a
  · rwa [exec_keeps_mem h fun v hi => hstr ⟨v, hi⟩]

/-- The fetch writes neither memory. -/
theorem afterFetch_inv {s : State} (hs : s.Inv) : (afterFetch s).Inv := hs

/-- Settles O4: a halted step answers the state itself; a running one is the fetch and an instruction, which both keep
the form. -/
theorem everyStepKeepsMemoryInvariant : Obligations.EveryStepKeepsMemoryInvariant := by
  intro s t hs hstep
  obtain ⟨-, rfl⟩ | ⟨-, hexec⟩ := step_cases hstep
  · exact hs
  · exact exec_keeps_inv hexec (afterFetch_inv hs)

/-- The loader writes both memories in canonical form, each within its own addresses. -/
theorem loadImage_inv {image : List Byte} (h : image.length ≤ 8192) : (loadImage image).Inv := by
  have hwindow : 0 + (image.take 4096).length ≤ 4096 := by rw [List.length_take]; omega
  have hupper : 4096 + (image.drop 4096).length ≤ 8192 := by rw [List.length_drop]; omega
  exact ⟨cellsOfBytes_wf hwindow, cellsOfBytes_wf hupper⟩

/-- Settles O3: empty memories are canonical, and a booted block is the loaded reset state. -/
theorem resetAndBootedStatesMeetMemoryInvariant : Obligations.ResetAndBootedStatesMeetMemoryInvariant := by
  refine ⟨⟨rfl, rfl⟩, fun image s hboot => ?_⟩
  obtain ⟨hlen, rfl⟩ := boot_ready hboot
  exact ⟨loadImage_inv hlen, hlen⟩

/-- The canonical form of a memory that lists something. -/
theorem cellsWf_cons {lo hi k : Nat} {w : Byte} {rest : List Host.Cell} :
    cellsWf lo hi ((k, w) :: rest) = true ↔ lo ≤ k ∧ k < hi ∧ w ≠ unlistedByte ∧ cellsWf (k + 1) hi rest = true := by
  simp only [cellsWf, Bool.and_eq_true, decide_eq_true_eq, and_assoc]

theorem cellGet_cons_same (k : Nat) (w : Byte) (rest : List Host.Cell) : cellGet ((k, w) :: rest) k = w := if_pos rfl

theorem cellGet_cons_other {k x : Nat} (h : k ≠ x) (w : Byte) (rest : List Host.Cell) :
    cellGet ((k, w) :: rest) x = cellGet rest x := if_neg h

/-- Below its first address a canonical memory lists nothing. -/
theorem cellGet_below {lo hi x : Nat} {m : List Host.Cell} (hm : cellsWf lo hi m = true) (h : x < lo) :
    cellGet m x = unlistedByte := by
  induction m generalizing lo with
  | nil => rfl
  | cons cell rest ih =>
    obtain ⟨k, w⟩ := cell
    obtain ⟨hlo, -, -, hrest⟩ := cellsWf_cons.mp hm
    rw [cellGet_cons_other (by omega), ih hrest (by omega)]

/-- The first address that a canonical memory lists reads as listed, so a canonical memory that reads alike starts no
later. -/
theorem start_le_of_cellGet_eq {lo hi lo' hi' k : Nat} {w : Byte} {rest m : List Host.Cell}
    (h : cellsWf lo hi ((k, w) :: rest) = true) (hm : cellsWf lo' hi' m = true)
    (hget : cellGet ((k, w) :: rest) k = cellGet m k) : lo' ≤ k := by
  obtain ⟨-, -, hw, -⟩ := cellsWf_cons.mp h
  by_contra hlt
  rw [cellGet_cons_same, cellGet_below hm (Nat.not_le.mp hlt)] at hget
  exact hw hget

/-- A canonical memory that lists something reads as listed somewhere. -/
theorem not_cellGet_eq_nil {lo hi k : Nat} {w : Byte} {rest : List Host.Cell}
    (h : cellsWf lo hi ((k, w) :: rest) = true) : ¬ ∀ x, x < hi → cellGet ((k, w) :: rest) x = cellGet [] x := by
  intro hget
  obtain ⟨-, hk, hw, -⟩ := cellsWf_cons.mp h
  rw [← cellGet_cons_same k w rest, hget k hk] at hw
  exact hw rfl

/-- Canonical memories that read alike are the same list: both list the same first address with the same byte, and the
rests read alike, since at and below that address neither lists anything. -/
theorem cells_ext {lo lo' hi : Nat} {m m' : List Host.Cell} (hm : cellsWf lo hi m = true)
    (hm' : cellsWf lo' hi m' = true) (hget : ∀ x, x < hi → cellGet m x = cellGet m' x) : m = m' := by
  induction m generalizing lo lo' m' with
  | nil =>
    cases m' with
    | nil => rfl
    | cons => exact absurd (fun x hx => (hget x hx).symm) (not_cellGet_eq_nil hm')
  | cons cell rest ih =>
    cases m' with
    | nil => exact absurd hget (not_cellGet_eq_nil hm)
    | cons cell' rest' =>
      obtain ⟨k, w⟩ := cell
      obtain ⟨k', w'⟩ := cell'
      obtain ⟨-, hk, hw, hrest⟩ := cellsWf_cons.mp hm
      obtain ⟨-, hk', hw', hrest'⟩ := cellsWf_cons.mp hm'
      have hstart' : cellsWf k' hi ((k', w') :: rest') = true := cellsWf_cons.mpr ⟨le_refl k', hk', hw', hrest'⟩
      have hstart : cellsWf k hi ((k, w) :: rest) = true := cellsWf_cons.mpr ⟨le_refl k, hk, hw, hrest⟩
      obtain rfl : k = k' := Nat.le_antisymm (start_le_of_cellGet_eq hm' hstart (hget k' hk').symm)
        (start_le_of_cellGet_eq hm hstart' (hget k hk))
      obtain rfl : w = w' := by
        have := hget k hk
        rwa [cellGet_cons_same, cellGet_cons_same] at this
      congr 1
      refine ih hrest hrest' fun x hx => ?_
      by_cases hxk : k < x
      · have := hget x hx
        rwa [cellGet_cons_other (by omega), cellGet_cons_other (by omega)] at this
      · rw [cellGet_below hrest (by omega), cellGet_below hrest' (by omega)]

/-- Settles O5: the port reads an address below 4096 as the memory itself does. -/
theorem memoriesThatReadAlikeAreEqual : Obligations.MemoriesThatReadAlikeAreEqual := by
  rintro s t ⟨hs, -⟩ ⟨ht, -⟩ hread
  refine cells_ext hs ht fun x hx => ?_
  have := hread x hx
  rwa [memRead, memRead, mask12_of_lt hx] at this

end Sys2Proof.Machine
end

section
/-! The upper half (20_memory.md R71; the spec's decision D4): no step reads it, so replacing it before or after a step
is one thing. -/

namespace Sys2Proof.Machine

/-- The state with another upper half. -/
def withUpper (s : State) (u : List Host.Cell) : State := { s with upper := u }

@[simp] theorem writeReg_withUpper (s : State) (u : List Host.Cell) (r : Reg) (v : Byte) :
    writeReg (withUpper s u) r v = withUpper (writeReg s r v) u := by cases r <;> rfl

@[simp] theorem readReg_withUpper (s : State) (u : List Host.Cell) (r : Reg) :
    readReg (withUpper s u) r = readReg s r := by cases r <;> rfl

@[simp] theorem swapWithA_withUpper (s : State) (u : List Host.Cell) (r : Reg) :
    swapWithA (withUpper s u) r = withUpper (swapWithA s r) u := by
  simp only [swapWithA, readReg_withUpper, writeReg_withUpper]

/-- The fetch reads the window only. -/
@[simp] theorem fetchWord_withUpper (s : State) (u : List Host.Cell) : fetchWord (withUpper s u) = fetchWord s := rfl

@[simp] theorem afterFetch_withUpper (s : State) (u : List Host.Cell) :
    afterFetch (withUpper s u) = withUpper (afterFetch s) u := rfl

/-- No instruction reads the upper half. -/
theorem exec_withUpper {i : Instr} {s t : State} (h : exec i s = .next t) (u : List Host.Cell) :
    exec i (withUpper s u) = .next (withUpper t u) := by
  cases i with
  | ldi | ldm | add | sub | or | and | not | shl | shr =>
    cases h
    exact congrArg _ (writeReg_withUpper s u .A _)
  | swb | swc | swd | swe =>
    cases h
    exact congrArg _ (swapWithA_withUpper s u _)
  | jnz v =>
    by_cases hd : s.d = 0
    · rw [exec_jnz_notTaken v hd] at h
      cases h
      exact exec_jnz_notTaken v hd
    · rw [exec_jnz_taken v hd] at h
      cases h
      exact exec_jnz_taken v hd
  | str | hlt =>
    cases h
    rfl

/-- Settles O13: a halted step answers the state it is given; a running one is the fetch and an instruction, which both
leave the upper half and do not read it. -/
theorem noStepReachesTheUpperHalf : Obligations.NoStepReachesTheUpperHalf := by
  intro s t u hstep
  obtain ⟨hhalt, rfl⟩ | ⟨hrun, hexec⟩ := step_cases hstep
  · exact ⟨rfl, step_halted (s := withUpper t u) hhalt⟩
  · refine ⟨(exec_keeps_upper hexec).trans (afterFetch_upper s), ?_⟩
    exact (step_running (s := withUpper s u) hrun).trans (exec_withUpper hexec u)

end Sys2Proof.Machine
end

section
/-! The step of the pseudocode (30_encoding.md R90): each operation of the model, seen over the natural numbers, is the
operation of Machine/Reference.lean, so each instruction is its row of `refExecute`. -/

namespace Sys2Proof.Machine

/-- States of the pseudocode that agree on every register, every address and the four control fields are one. -/
theorem refState_ext {p q : RefState} (hx : ∀ r, p.x r = q.x r) (hip : p.ip = q.ip) (hhalt : p.halt = q.halt)
    (hop : p.irOp = q.irOp) (hval : p.irVal = q.irVal) (hM : ∀ a, p.M a = q.M a) : p = q := by
  cases p
  cases q
  rw [RefState.mk.injEq]
  exact ⟨funext hx, hip, hhalt, hop, hval, funext hM⟩

theorem toRef_writeReg (s : State) (r : Reg) (v : Byte) : toRef (writeReg s r v) = refWrite (toRef s) r v.toNat := by
  obtain ⟨hip, hhalt, hop, hval, -, -⟩ := writeReg_control s r v
  refine refState_ext (fun q => ?_) (congrArg BitVec.toNat hip) hhalt (congrArg BitVec.toNat hop)
    (congrArg BitVec.toNat hval) fun a => congrArg BitVec.toNat (memRead_writeReg s r v a)
  calc (readReg (writeReg s r v) q).toNat
      = (if q = r then v else readReg s q).toNat := by rw [readReg_writeReg]
    _ = if q = r then v.toNat else (readReg s q).toNat := apply_ite BitVec.toNat ..

theorem toRef_swapWithA (s : State) (r : Reg) : toRef (swapWithA s r) = refSwap (toRef s) r := by
  obtain ⟨hip, hhalt, hop, hval, hmem, -⟩ := swapWithA_control s r
  refine refState_ext (fun q => ?_) (congrArg BitVec.toNat hip) hhalt (congrArg BitVec.toNat hop)
    (congrArg BitVec.toNat hval) fun a => congrArg (fun m => (cellGet m (mask12 a)).toNat) hmem
  cases r <;> cases q <;> rfl

theorem toRef_memWrite (s : State) (v : Value) (b : Byte) : toRef (memWrite s v.toNat b) =
    { toRef s with M := fun a => if a % 4096 = v.toNat then b.toNat else (toRef s).M a } := by
  refine refState_ext (fun q => congrArg BitVec.toNat (readReg_memWrite s _ b q)) rfl rfl rfl rfl fun a => ?_
  calc (memRead (memWrite s v.toNat b) a).toNat
      = (if mask12 a = mask12 v.toNat then b else memRead s a).toNat := by rw [memRead_memWrite]
    _ = (if a % 4096 = v.toNat then b else memRead s a).toNat := by rw [mask12_of_lt v.isLt, mask12]
    _ = if a % 4096 = v.toNat then b.toNat else (memRead s a).toNat := apply_ite BitVec.toNat ..

/-- A result written to A is the pseudocode's write of the same number. -/
theorem toRef_writeReg_A {s : State} {v : Byte} {n : Nat} (h : v.toNat = n) :
    toRef (writeReg s .A v) = refWrite (toRef s) .A n := h ▸ toRef_writeReg s .A v

/-- JNZ's test of D and its target, over the natural numbers. -/
theorem exec_jnz_refines {v : Value} {s t : State} (h : exec (.jnz v) s = .next t) :
    toRef t = refExecute 5 v.toNat (toRef s) := by
  have htest : (toRef s).x .D ≠ 0 ↔ s.d ≠ 0 := (BitVec.toNat_ne_iff_ne (y := 0#8)).trans Iff.rfl
  cases execEffect_of_exec h with
  | writesA hi | swaps hi => cases hi
  | staysInLine _ hd => exact (if_neg fun hx => htest.mp hx hd).symm
  | jumps _ hd =>
    refine Eq.trans ?_ (if_pos (htest.mpr hd)).symm
    exact refState_ext (fun r => congrArg BitVec.toNat (readReg_setIp s _ r)) (jumpTarget_toNat s.a v) rfl rfl rfl
      fun _ => rfl

/-- Every instruction is its row of the pseudocode's case distinction. -/
theorem exec_refines {i : Instr} {s t : State} (h : exec i s = .next t) :
    toRef t = refExecute (opcode i).toNat (valueField i).toNat (toRef s) := by
  cases i with
  | ldi v =>
    cases h
    exact toRef_writeReg_A (imm8_toNat v)
  | ldm v =>
    cases h
    exact toRef_writeReg_A rfl
  | str v =>
    cases h
    exact toRef_memWrite s v s.a
  | add =>
    cases h
    exact toRef_writeReg_A (aluAdd_toNat s.b s.c)
  | sub =>
    cases h
    exact toRef_writeReg_A (aluSub_toNat s.b s.c)
  | jnz v => exact exec_jnz_refines h
  | swb | swc | swd | swe =>
    cases h
    exact toRef_swapWithA s _
  | or =>
    cases h
    exact toRef_writeReg_A (BitVec.toNat_or s.b s.c)
  | and =>
    cases h
    exact toRef_writeReg_A (BitVec.toNat_and s.b s.c)
  | not =>
    cases h
    exact toRef_writeReg_A (aluNot_toNat s.b)
  | shl =>
    cases h
    exact toRef_writeReg_A (aluShl_toNat s.b s.c)
  | shr =>
    cases h
    exact toRef_writeReg_A (aluShr_toNat s.b s.c)
  | hlt =>
    cases h
    rfl

/-- The port masks an address before it reads, so masking it beforehand is no difference (20_memory.md R52). -/
theorem memRead_mod (s : State) (addr : Nat) : memRead s (addr % 4096) = memRead s addr :=
  congrArg (cellGet s.mem) (mask12_mask12 addr)

/-- The pseudocode's word is the fetched one. -/
theorem fetchWord_toRef (s : State) :
    (toRef s).M (toRef s).ip * 256 + (toRef s).M (((toRef s).ip + 1) % 4096) = (fetchWord s).toNat := by
  rw [fetchWord_toNat, ← memRead_mod s (s.ip.toNat + 1)]
  rfl

/-- The pseudocode's state before its case distinction is the state after the fetch. -/
theorem toRef_afterFetch (s : State) : toRef (afterFetch s) =
    { toRef s with
      ip := (s.ip.toNat + 2) % 4096, irOp := (fetchWord s).toNat / 4096, irVal := (fetchWord s).toNat % 4096 } :=
  refState_ext (fun r => congrArg BitVec.toNat (readReg_afterFetch s r)) (nextIp_toNat s.ip) rfl (opcodeOf_toNat _)
    (valueOf_toNat _) fun _ => rfl

theorem refStep_halted {s : State} (h : s.halt = true) : refStep (toRef s) = toRef s := if_pos h

/-- A running step of the pseudocode dispatches on the fields of the fetched word. -/
theorem refStep_running {s : State} (h : s.halt = false) : refStep (toRef s) =
    refExecute ((fetchWord s).toNat / 4096) ((fetchWord s).toNat % 4096) (toRef (afterFetch s)) := by
  rw [toRef_afterFetch, ← fetchWord_toRef]
  exact if_neg (Bool.eq_false_iff.mp h)

/-- Every step completes (30_encoding.md R92): a halted one at once, a running one because its instruction does. -/
theorem step_completes (s : State) : ∃ t, step s = .next t := by
  by_cases hhalt : s.halt = true
  · exact ⟨s, step_halted hhalt⟩
  · rw [step_running (Bool.eq_false_of_not_eq_true hhalt)]
    exact exec_completes _ _

/-- Every step is the pseudocode's. -/
theorem step_refines {s t : State} (h : step s = .next t) : toRef t = refStep (toRef s) := by
  obtain ⟨hhalt, rfl⟩ | ⟨hrun, hexec⟩ := step_cases h
  · exact (refStep_halted hhalt).symm
  · rw [refStep_running hrun, exec_refines hexec, opcode_decode, valueField_decode, opcodeOf_toNat, valueOf_toNat]

/-- Settles O9: the step completes, and in both cases of the driver it is the pseudocode's. -/
theorem stepRefinesPseudocode : Obligations.StepRefinesPseudocode := by
  intro s
  obtain ⟨t, hstep⟩ := step_completes s
  exact ⟨t, hstep, step_refines hstep⟩

end Sys2Proof.Machine
end

section
/-! Decoder and encoder are inverse to each other (30_encoding.md R80, R81, R84, R87): a word is its two fields, and
it is its two bytes. -/

namespace Sys2Proof

/-- A word is its opcode followed by its value field. -/
theorem opcodeOf_append_valueOf (w : Word) : opcodeOf w ++ valueOf w = w :=
  (BitVec.extractLsb'_append_extractLsb'_eq_extractLsb' rfl).trans BitVec.extractLsb'_eq_self

/-- A word is its high byte followed by its low byte. -/
theorem wordOfBytes_highByte_lowByte (w : Word) : wordOfBytes (highByte w) (lowByte w) = w :=
  (BitVec.extractLsb'_append_extractLsb'_eq_extractLsb' rfl).trans BitVec.extractLsb'_eq_self

theorem decode_shl (v : Value) : decode (0b1101#4 ++ v) = .shl v := decode_append _ v
theorem decode_hlt (v : Value) : decode (0b1111#4 ++ v) = .hlt v := decode_append _ v

/-- The decoder reads back every encoded instruction: its opcode picks it, and its value field is carried along. -/
theorem decode_encode : ∀ i : Instr, decode (encode i) = i
  | .ldi v => decode_ldi v
  | .ldm v => decode_ldm v
  | .str v => decode_str v
  | .add v => decode_add v
  | .sub v => decode_sub v
  | .jnz v => decode_jnz v
  | .swb v => decode_swb v
  | .swc v => decode_swc v
  | .swd v => decode_swd v
  | .swe v => decode_swe v
  | .or v => decode_or v
  | .and v => decode_and v
  | .not v => decode_not v
  | .shl v => decode_shl v
  | .shr v => decode_shr v
  | .hlt v => decode_hlt v

/-- The encoder gives back every decoded word: it joins the two fields that the decoder took apart. -/
theorem encode_decode (w : Word) : encode (decode w) = w := by
  rw [encode, opcode_decode, valueField_decode, opcodeOf_append_valueOf]

/-- The two bytes of an instruction decode to it, and what follows them is left. -/
theorem decodeBytes_encodeBytes_append (i : Instr) (rest : List Byte) :
    decodeBytes (encodeBytes i ++ rest) = .instr i rest := by
  have hword : decode (wordOfBytes (highByte (encode i)) (lowByte (encode i))) = i := by
    rw [wordOfBytes_highByte_lowByte, decode_encode]
  exact congrArg (Decoded.instr · rest) hword

/-- Settles O14: the word and its two bytes each decode to the instruction. -/
theorem decodeOfEncodeIsTheInstruction : Obligations.DecodeOfEncodeIsTheInstruction :=
  fun i rest => ⟨decode_encode i, decodeBytes_encodeBytes_append i rest⟩

/-- Settles O15: encoding puts back together what decoding took apart. -/
theorem encodeOfDecodeIsTheWord : Obligations.EncodeOfDecodeIsTheWord := encode_decode

/-- Settles O17: each listed word is an opcode followed by a value, and decodes to that opcode's instruction. -/
theorem listedWordsDecodeAsListed : Obligations.ListedWordsDecodeAsListed :=
  ⟨decode_ldi 0xF2A, decode_ldm 0xABC, decode_str 0x00E, decode_add 0xABC, decode_sub 0, decode_jnz 0x004,
    decode_swd 0, decode_swe 0xFFF, decode_and 0, decode_shl 0, decode_hlt 0xFFF⟩

end Sys2Proof
end

section
/-! The lines of the assembler (30_encoding.md R88; the spec's decisions D11 and D12). -/

namespace Sys2Proof

theorem instrOf_mnemonic (i : Instr) : instrOf (mnemonic i) (valueField i) = i := by cases i <;> rfl

/-- The operands a mnemonic takes, written out. -/
theorem operandFits_iff (m : Mnemonic) (n : Nat) :
    m.operandFits n = true ↔ (m = .LDI ∧ n ≤ 255) ∨ ((m = .LDM ∨ m = .STR ∨ m = .JNZ) ∧ n ≤ 4095) := by
  cases m <;> simp [Mnemonic.operandFits, Mnemonic.operandMax]

/-- A value field whose bits 11 to 8 are clear is a number of one byte. -/
theorem toNat_le_of_high_bits_zero {v : Value} (h : (v.extractLsb' 8 4 == 0) = true) : v.toNat ≤ 255 := by
  have hlt := v.isLt
  have hhigh := congrArg BitVec.toNat (beq_iff_eq.mp h)
  rw [BitVec.extractLsb'_toNat, Nat.shiftRight_eq_div_pow] at hhigh
  change v.toNat / 2 ^ 8 % 2 ^ 4 = 0 at hhigh
  omega

/-- The value field of a canonical instruction that takes an operand is an operand it takes. -/
theorem operandFits_of_canonical {i : Instr} (hcanon : i.canonical = true) {top : Nat}
    (hmax : (mnemonic i).operandMax = some top) : (mnemonic i).operandFits (valueField i).toNat = true := by
  cases i with
  | ldi v => exact (operandFits_iff ..).mpr (.inl ⟨rfl, toNat_le_of_high_bits_zero hcanon⟩)
  | ldm v => exact (operandFits_iff ..).mpr (.inr ⟨.inl rfl, Nat.le_of_lt_succ v.isLt⟩)
  | str v => exact (operandFits_iff ..).mpr (.inr ⟨.inr (.inl rfl), Nat.le_of_lt_succ v.isLt⟩)
  | jnz v => exact (operandFits_iff ..).mpr (.inr ⟨.inr (.inr rfl), Nat.le_of_lt_succ v.isLt⟩)
  | add | sub | swb | swc | swd | swe | or | and | not | shl | shr | hlt => cases hmax

/-- The value field of a canonical instruction that takes no operand is 0. -/
theorem valueField_eq_zero_of_canonical {i : Instr} (hcanon : i.canonical = true)
    (hmax : (mnemonic i).operandMax = none) : valueField i = 0 := by
  cases i with
  | ldi | ldm | str | jnz => cases hmax
  | add | sub | swb | swc | swd | swe | or | and | not | shl | shr | hlt => exact beq_iff_eq.mp hcanon

namespace Machine

/-- A source of one line that defines no label assembles to what the line emits. -/
theorem assemble_single {l : AsmLine} (hl : labelTable 0 [l] = []) : assemble [l] = emitLine [] l := by
  rw [assemble, hl, if_pos (by decide)]
  cases hemit : emitLine [] l with
  | none => simp only [emitLines, hemit]
  | some bytes => simp only [emitLines, hemit, List.append_nil]

/-- A line with a written-out operand assembles to the instruction with that operand, where the mnemonic takes it. -/
theorem assemble_operand_lit (m : Mnemonic) (n : Nat) : assemble [.operand m (.lit n)] =
    if m.operandFits n then some (encodeBytes (instrOf m (BitVec.ofNat 12 n))) else none := assemble_single rfl

/-- A line without an operand assembles to the instruction with value 0, where the mnemonic takes none. -/
theorem assemble_plain (m : Mnemonic) : assemble [.plain m] =
    if m.operandMax.isNone then some (encodeBytes (instrOf m 0)) else none := assemble_single rfl

/-- A `.word` line of a word's number assembles to its two bytes. -/
theorem assemble_word (w : Word) : assemble [.word (.lit w.toNat)] = some [highByte w, lowByte w] := by
  have hemit : assemble [.word (.lit w.toNat)] =
      if decide (w.toNat < 65536) then
        some [highByte (BitVec.ofNat 16 w.toNat), lowByte (BitVec.ofNat 16 w.toNat)] else none := assemble_single rfl
  rw [hemit, if_pos (decide_eq_true w.isLt), BitVec.ofNat_toNat, BitVec.setWidth_eq]

/-- The line of a canonical instruction that takes an operand. -/
theorem assemble_operand_of_canonical {i : Instr} (hcanon : i.canonical = true) {top : Nat}
    (hmax : (mnemonic i).operandMax = some top) :
    assemble [.operand (mnemonic i) (.lit (valueField i).toNat)] = some (encodeBytes i) := by
  rw [assemble_operand_lit, if_pos (operandFits_of_canonical hcanon hmax), BitVec.ofNat_toNat, BitVec.setWidth_eq,
    instrOf_mnemonic]

/-- The line of a canonical instruction that takes no operand. -/
theorem assemble_plain_of_canonical {i : Instr} (hcanon : i.canonical = true)
    (hmax : (mnemonic i).operandMax = none) : assemble [.plain (mnemonic i)] = some (encodeBytes i) := by
  rw [assemble_plain, if_pos (Option.isNone_iff_eq_none.mpr hmax), ← valueField_eq_zero_of_canonical hcanon hmax,
    instrOf_mnemonic]

/-- Settles O47: a canonical word is printed as the line of its instruction, with its value field as the operand or
without one, and every other word as `.word`. -/
theorem assembledDisassemblyIsTheWord : Obligations.AssembledDisassemblyIsTheWord := by
  intro w
  have hbytes : encodeBytes (decode w) = [highByte w, lowByte w] := by rw [encodeBytes, encode_decode]
  by_cases hcanon : (decode w).canonical = true
  · rw [disassemble, if_pos hcanon, ← hbytes]
    cases hmax : (mnemonic (decode w)).operandMax with
    | some top => exact assemble_operand_of_canonical hcanon hmax
    | none => exact assemble_plain_of_canonical hcanon hmax
  · rw [disassemble, if_neg hcanon]
    exact assemble_word w

/-- Settles O48: the assembler emits bytes exactly when the operand fits. -/
theorem assemblerRefusesOperandsOutOfRange : Obligations.AssemblerRefusesOperandsOutOfRange := by
  intro m n
  rw [assemble_operand_lit, ← operandFits_iff]
  split
  · next hfits => simp [hfits]
  · next hfits => simp [hfits]

end Machine
end Sys2Proof
end

section
/-! The ports (20_memory.md R52, R54, R57, R58): addresses masked alike are one, and the word the fetch port
presents. -/

namespace Sys2Proof.Machine

/-- The mask drops whole windows. -/
theorem mask12_add_mul (addr k : Nat) : mask12 (addr + 4096 * k) = mask12 addr := Nat.add_mul_mod_self_left addr 4096 k

/-- The port reads addresses that it masks alike as one. -/
theorem memRead_congr {x y : Nat} (h : mask12 x = mask12 y) (s : State) : memRead s x = memRead s y :=
  congrArg (cellGet s.mem) h

/-- The port writes addresses that it masks alike as one. -/
theorem memWrite_congr {x y : Nat} (h : mask12 x = mask12 y) (s : State) (v : Byte) :
    memWrite s x v = memWrite s y v := by
  rw [memWrite, h, memWrite]

/-- Settles O20: both directions of the port see an address through the mask only. -/
theorem portAddressesWrap : Obligations.PortAddressesWrap :=
  fun s addr k v => ⟨memRead_congr (mask12_add_mul addr k) s, memWrite_congr (mask12_add_mul addr k) s v⟩

/-- The fetched word with the mask on its second address written out (the spec's decision D5). -/
theorem fetchWord_eq (s : State) :
    fetchWord s = wordOfBytes (memRead s s.ip.toNat) (memRead s ((s.ip.toNat + 1) % 4096)) := by
  rw [memRead_mod, fetchWord]

/-- Settles O21: the word as a number, and at 0xFFF, whose successor is address 0. -/
theorem fetchIsBigEndianAndWraps : Obligations.FetchIsBigEndianAndWraps := by
  refine fun s => ⟨?_, fun hip => ?_⟩
  · rw [fetchWord_toNat, memRead_mod]
  · rw [fetchWord_eq, hip]
    rfl

/-- Settles O6: the two bytes are the fetched word, whose two fields are the opcode and the value field of what it
decodes to. -/
theorem stepRunsDecodedInstruction : Obligations.StepRunsDecodedInstruction := by
  rintro s i hrun rfl
  rw [← fetchWord_eq, step_running hrun, opcode_decode, valueField_decode]
  have hip : nextIp s.ip = BitVec.ofNat 12 ((s.ip.toNat + 2) % 4096) := by
    rw [← nextIp_toNat, BitVec.ofNat_toNat, BitVec.setWidth_eq]
  rw [← hip]
  rfl

/-! ### A word placed at the fetch address -/

/-- The two addresses of a word are two, also at 0xFFF. -/
theorem mask12_succ_ne (p : Nat) : mask12 (p + 1) ≠ mask12 p := by
  simp only [mask12]
  omega

/-- The fetch port reads a placed word back. -/
theorem fetchWord_placeWord (s : State) (w : Word) : fetchWord (placeWord s w) = w := by
  have hhigh : memRead (placeWord s w) s.ip.toNat = highByte w := by
    rw [placeWord, memRead_memWrite_other (mask12_succ_ne _).symm, memRead_memWrite_same rfl]
  have hlow : memRead (placeWord s w) (s.ip.toNat + 1) = lowByte w := memRead_memWrite_same rfl
  calc fetchWord (placeWord s w)
      = wordOfBytes (memRead (placeWord s w) s.ip.toNat) (memRead (placeWord s w) (s.ip.toNat + 1)) := rfl
    _ = w := by rw [hhigh, hlow, wordOfBytes_highByte_lowByte]

/-- Placing a word leaves every byte but its two. -/
theorem memRead_placeWord_other {s : State} {w : Word} {addr : Nat} (hhigh : mask12 addr ≠ mask12 s.ip.toNat)
    (hlow : mask12 addr ≠ mask12 (s.ip.toNat + 1)) : memRead (placeWord s w) addr = memRead s addr := by
  rw [placeWord, memRead_memWrite_other hlow, memRead_memWrite_other hhigh]

/-- Making the driver run leaves what the fetch port reads. -/
@[simp] theorem fetchWord_makeRunning (s : State) : fetchWord (makeRunning s) = fetchWord s := rfl

/-- A table word of 16 bits is its low 16 bits. -/
theorem tableWord_sixteen (w : Nat) : tableWord 16 w = BitVec.ofNat 16 w := by
  apply BitVec.eq_of_toNat_eq
  rw [tableWord, BitVec.toNat_ofNat, BitVec.toNat_ofNat, Nat.mod_mod]

/-- Settles O46: the driver runs and fetches the placed word, and the two writes and the clearing of the halt flag have
their frames. -/
theorem placedWordIsRunNext : Obligations.PlacedWordIsRunNext := by
  intro s w _
  have hfetch : fetchWord (s.withFetchWord 16 w) = BitVec.ofNat 16 w := by
    rw [State.withFetchWord, fetchWord_makeRunning, fetchWord_placeWord, tableWord_sixteen]
  have hrun : (s.withFetchWord 16 w).halt = false := makeRunning_halt _
  refine ⟨?_, fun addr hhigh hlow => ?_, fun r => ?_, ⟨rfl, rfl, rfl, rfl⟩, rfl⟩
  · rw [step_running hrun, hfetch]
  · rw [State.withFetchWord, memRead_makeRunning]
    rw [← mask12_of_lt s.ip.isLt] at hhigh
    exact memRead_placeWord_other hhigh hlow
  · rw [State.withFetchWord, readReg_makeRunning, placeWord, readReg_memWrite, readReg_memWrite]

end Sys2Proof.Machine
end

section
/-! Two instructions one after another, the first of them a store (20_memory.md R70, 40_load_store.md R105). -/

namespace Sys2Proof.Machine

/-- The word after the one at `ip`, as the fetch port reads it once IP has moved past the latter. -/
theorem fetchWord_of_ip_eq_nextIp {s t : State} (hip : t.ip = nextIp s.ip) :
    fetchWord t = wordOfBytes (memRead t (s.ip.toNat + 2)) (memRead t (s.ip.toNat + 3)) := by
  have hlow : mask12 ((s.ip.toNat + 2) % 4096 + 1) = mask12 (s.ip.toNat + 3) := by
    simp only [mask12]
    omega
  rw [fetchWord, hip, nextIp_toNat, memRead_mod, memRead_congr hlow]

/-- Settles O22: the store is to the address that the next fetch takes its high byte from, and leaves the address after
it. -/
theorem storeIsSeenByTheNextFetch : Obligations.StoreIsSeenByTheNextFetch := by
  intro s v hrun hword hv
  have hsame : mask12 (s.ip.toNat + 2) = mask12 v.toNat := by rw [mask12_of_lt v.isLt, hv, mask12]
  have hother : mask12 (s.ip.toNat + 3) ≠ mask12 v.toNat := hsame ▸ mask12_succ_ne _
  have hfetch : fetchWord (memWrite (afterFetch s) v.toNat s.a) = wordOfBytes s.a (memRead s (s.ip.toNat + 3)) := by
    rw [fetchWord_of_ip_eq_nextIp (s := s) rfl, memRead_memWrite_same hsame, memRead_memWrite_other hother,
      memRead_afterFetch]
  exact ⟨_, step_str hrun hword, hfetch, hfetch ▸ step_running hrun⟩

/-- A register written with what it holds: no register changes, whatever else the fetch has changed. -/
theorem onlyRegsChange_writeReg_self {s : State} {r : Reg} {v : Byte} (h : v = readReg s r) :
    OnlyRegsChange [] s (writeReg s r v) := by
  obtain ⟨hother, hcontrol, hmem⟩ := onlyRegsChange_writeReg s r v
  refine ⟨fun q _ => ?_, hcontrol, hmem⟩
  by_cases hq : q = r
  · rw [hq, readReg_writeReg_same, h]
  · exact readReg_writeReg_other hq

/-- Settles O23: the store leaves both bytes of the LDM word, so the second step loads what the first stored. -/
theorem storeThenLoadRoundTrip : Obligations.StoreThenLoadRoundTrip := by
  intro s X hrun hstr hldm hhigh hlow
  rw [← mask12_of_lt X.isLt] at hhigh hlow
  have hfetch : fetchWord (memWrite (afterFetch s) X.toNat s.a) = 0b0001#4 ++ X := by
    rw [fetchWord_of_ip_eq_nextIp (s := s) rfl, memRead_memWrite_other hhigh.symm, memRead_memWrite_other hlow.symm,
      memRead_afterFetch, memRead_afterFetch, hldm]
  have hload : memRead (memWrite (afterFetch s) X.toNat s.a) X.toNat = s.a := memRead_memWrite_same rfl
  refine ⟨_, _, step_str hrun hstr, step_ldm hrun hfetch, hload, ?_, onlyRegsChange_writeReg_self ?_⟩
  · rw [memRead_writeReg, memRead_afterFetch, hload]
  · exact hload

end Sys2Proof.Machine
end

section
/-! Runs (30_encoding.md R92 to R94): a run never stops, an invariant of the step holds all along it, and a halted state
ends it. -/

namespace Sys2Proof.Machine

/-- Settles O7: every instruction completes, and so does every step. -/
theorem everyInstructionAndStepCompletes : Obligations.EveryInstructionAndStepCompletes :=
  ⟨exec_completes, step_completes⟩

/-- A run of any length answers a state. -/
theorem reaches_total (s : State) (k : Nat) : ∃ t, Reaches s k t := by
  induction k generalizing s with
  | zero => exact ⟨s, reaches_zero.mpr rfl⟩
  | succ k ih =>
    obtain ⟨u, hstep⟩ := step_completes s
    obtain ⟨t, hrun⟩ := ih u
    exact ⟨t, (reaches_succ hstep).mpr hrun⟩

/-- Settles O8: a run of any length answers a state. -/
theorem noRunEverStops : Obligations.NoRunEverStops := reaches_total

/-- What every step keeps holds all along a run. -/
theorem reaches_keeps {P : State → Prop} (hkeep : ∀ s t, P s → step s = .next t → P t) {s t : State} {k : Nat}
    (hs : P s) (h : Reaches s k t) : P t := by
  induction k generalizing s with
  | zero => exact reaches_zero.mp h ▸ hs
  | succ k ih =>
    obtain ⟨u, hstep⟩ := step_completes s
    exact ih (hkeep s u hs hstep) ((reaches_succ hstep).mp h)

/-- A run of a given length ends in one state. -/
theorem reaches_unique {s t u : State} {k : Nat} (ht : Reaches s k t) (hu : Reaches s k u) : t = u :=
  Host.Outcome.next.inj (ht.symm.trans hu)

/-- Settles O41: a halted state is a fixed point of every run. -/
theorem haltedStateIsFinal : Obligations.HaltedStateIsFinal := fun _ h k => reaches_self_of_halted h k

/-- The host sees the halt flag itself. -/
@[simp] theorem status_halt (s : State) : (status s).halt = s.halt := rfl

/-- The host's loop asks for no step of a halted block. -/
theorem runToHalt_halted {s : State} (h : s.halt = true) (k : Nat) : runToHalt k s = .next s := by
  cases k with
  | zero => rfl
  | succ k => exact if_pos h

/-- On a running block the host's loop is a step and the rest of the loop. -/
theorem runToHalt_running {s t : State} (h : s.halt = false) (hstep : step s = .next t) (k : Nat) :
    runToHalt (k + 1) s = runToHalt k t := by
  rw [runToHalt, status_halt, if_neg (Bool.eq_false_iff.mp h), hstep]

/-- Settles O42: by induction on the number of steps; the loop stops early only at a halted state, where plain stepping
stays. -/
theorem runToHaltAgreesWithStepping : Obligations.RunToHaltAgreesWithStepping := by
  intro s t k h
  induction k generalizing s with
  | zero => exact h
  | succ k ih =>
    by_cases hhalt : s.halt = true
    · rw [runToHalt_halted hhalt, reaches_unique h (reaches_self_of_halted hhalt _)]
    · obtain ⟨u, hstep⟩ := step_completes s
      rw [runToHalt_running (Bool.eq_false_of_not_eq_true hhalt) hstep]
      exact ih u ((reaches_succ hstep).mp h)

/-- A running block at a JNZ that jumps to its own address. -/
def AtJnzToItself (v : Value) (s : State) : Prop :=
  s.halt = false ∧ fetchWord s = 0b0101#4 ++ v ∧ s.d ≠ 0 ∧ jumpTarget s.a v = s.ip

/-- A JNZ that jumps to its own address comes back to it with the registers and memory that it found. -/
theorem step_keeps_atJnzToItself {v : Value} {s t : State} (hs : AtJnzToItself v s) (hstep : step s = .next t) :
    AtJnzToItself v t := by
  obtain ⟨hrun, hword, hd, htarget⟩ := hs
  have hjump : exec (.jnz v) (afterFetch s) = .next (setIp (afterFetch s) s.ip) :=
    htarget ▸ exec_jnz_taken (s := afterFetch s) v hd
  rw [step_running hrun, hword, decode_jnz, hjump] at hstep
  cases hstep
  exact ⟨hrun, hword, hd, htarget⟩

/-- Settles O31: every step keeps the block at the JNZ, running. -/
theorem jnzToItselfNeverHalts : Obligations.JnzToItselfNeverHalts := by
  rintro s v hrun hword hd htarget ⟨k, t, hreach, hhalt⟩
  have hs : AtJnzToItself v s :=
    ⟨hrun, hword, hd, BitVec.eq_of_toNat_eq ((jumpTarget_toNat s.a v).trans htarget)⟩
  obtain ⟨hrun', -⟩ := reaches_keeps (fun _ _ => step_keeps_atJnzToItself) hs hreach
  exact Bool.eq_false_iff.mp hrun' hhalt

end Sys2Proof.Machine
end

section
/-! The left shift (44_logic_shift.md R153; the spec's resolution C5 and decision D6). -/

namespace Sys2Proof.Machine

/-- The shift of the number, cut to a byte, is the shift of the byte. -/
theorem aluShl_eq_shiftLeft (b c : Byte) : aluShl b c = b <<< c.toNat := by
  apply BitVec.eq_of_toNat_eq
  rw [aluShl_toNat, BitVec.toNat_shiftLeft, Nat.shiftLeft_eq]

/-- A count of 8 or more shifts every bit out. -/
theorem aluShl_eq_zero (b : Byte) {c : Byte} (h : 8 ≤ c.toNat) : aluShl b c = 0 := by
  rw [aluShl_eq_shiftLeft]
  exact BitVec.shiftLeft_eq_zero h

/-- Below the count there are the zeros shifted in, and from it on the bits of B. -/
theorem aluShl_getLsbD (b c : Byte) {k : Nat} (h : k < 8) :
    (aluShl b c).getLsbD k = (decide (c.toNat ≤ k) && b.getLsbD (k - c.toNat)) := by
  rw [aluShl_eq_shiftLeft, BitVec.getLsbD_shiftLeft, decide_eq_true h, Bool.true_and, ← decide_not,
    decide_eq_decide.mpr Nat.not_lt]

/-- Settles O37: A holds the ALU's left shift of B by C, known as a number, for the counts of 8 or more, and bit by
bit. -/
theorem shlShiftsAndTruncates : Obligations.ShlShiftsAndTruncates := by
  refine fun v s => ⟨decode_shl v, _, exec_shl v s, ?_, fun hcount => ?_, fun k hk => ?_,
    onlyRegsChange_writeReg s .A _⟩
  · exact aluShl_toNat s.b s.c
  · exact aluShl_eq_zero s.b hcount
  · exact aluShl_getLsbD s.b s.c hk

end Sys2Proof.Machine
end

section
/-! HLT (45_system.md R170; the spec's resolution C6), and the latch of a booted block (10_state.md R46). -/

namespace Sys2Proof.Machine

/-- The frame of HLT: the state with the halt flag set, and no register, other control field or byte besides. -/
theorem onlyRegsChange_setHalt (s : State) : OnlyRegsChange [] { s with halt := true } (setHalt s) :=
  ⟨fun r _ => readReg_setHalt s r, ⟨setHalt_ip s, setHalt_halt s, setHalt_irOp s, setHalt_irVal s⟩,
    memRead_setHalt s, setHalt_upper s⟩

/-- A running step on an HLT word. -/
theorem step_hlt {s : State} {v : Value} (hrun : s.halt = false) (hword : fetchWord s = 0b1111#4 ++ v) :
    step s = .next (setHalt (afterFetch s)) := by
  rw [step_running hrun, hword, decode_hlt, exec_hlt]

/-- Settles O39: HLT is `setHalt`; its step leaves what the fetch has written, IP after the word and the latch, and
every register and byte. -/
theorem hltSetsTheHaltFlagOnly : Obligations.HltSetsTheHaltFlagOnly := by
  refine ⟨fun v s => ⟨decode_hlt v, _, exec_hlt v s, setHalt_halt s, onlyRegsChange_setHalt s⟩,
    fun s v hrun hword => ?_⟩
  have hstep := step_hlt hrun hword
  obtain ⟨hop, hval⟩ := step_running_latch hrun hstep
  obtain ⟨hop_word, hval_word⟩ := Laws.EncodeFields.fields_of_append 0b1111#4 v
  rw [hword] at hop hval
  exact ⟨_, hstep, setHalt_halt _, nextIp_toNat s.ip, hop.trans hop_word, hval.trans hval_word,
    fun r => readReg_afterFetch s r, fun addr => memRead_afterFetch s addr, afterFetch_upper s⟩

/-- Settles O2: loading leaves the latch as reset does. -/
theorem latchReadsZeroBeforeTheFirstStep : Obligations.LatchReadsZeroBeforeTheFirstStep := by
  intro image s hboot
  obtain ⟨-, rfl⟩ := boot_ready hboot
  obtain ⟨-, -, hop, hval⟩ := sameControl_loadImage image
  exact ⟨hop, hval⟩

end Sys2Proof.Machine
end
